-- ==== Sys2Proof/Word.lean ====
section
/-! DEFINITION. The value types of the block (10_state.md R31, R33; 30_encoding.md R55, R58, R70, R71). -/

namespace Sys2Proof

/-- A 16-bit SEF pattern (R33, R55). -/
abbrev Pattern16 := BitVec 16

/-- A 64-bit binary64 pattern, FPA's `f64` (R33, R70; D8). -/
abbrev F64 := BitVec 64

/-- The packed request word `REQ[81:0]` (R71). -/
abbrev ReqWord := BitVec 82

/-- The SEF value as the triple of R31. -/
structure Sef where
  sign     : BitVec 1
  exponent : BitVec 4
  fraction : BitVec 11
  deriving DecidableEq, Repr

/-- The five classes of a SEF pattern (R33, R58). -/
inductive SefClass where
  | zero
  | subnormal
  | normal
  | infinity
  | nan
  deriving DecidableEq, Repr

/-- The record `(op, a, b)` that a request is (R26). -/
structure Request where
  op : BitVec 2
  a  : BitVec 64
  b  : BitVec 16
  deriving DecidableEq, Repr

end Sys2Proof
end

