-- ==== Sys2Proof/Config.lean ====
section
/-! DEFINITION. The format constants (00_scope.md R9, R10), the parameters the spec leaves to the model (R12), and the free
values for what the spec leaves unspecified (93_implementation_defined.md U1, U10, U11, U13). -/

namespace Sys2Proof.Config

/-! The format constants, R9. -/

abbrev signBits : Nat := 1
abbrev expBits : Nat := 4
abbrev fracBits : Nat := 11
abbrev bias : Nat := 7
abbrev guardBits : Nat := 8

/-! What follows from them, R10. -/

/-- `WIDTH`. -/
abbrev width : Nat := 16
/-- `FRAC_MAX`. -/
abbrev fracMax : Nat := 2047
/-- `EXP_ALL_ONES`. -/
abbrev expAllOnes : Nat := 15
/-- `EXP_MIN_NORMAL`. -/
abbrev expMinNormal : Nat := 1
/-- `EXP_MAX_NORMAL`. -/
abbrev expMaxNormal : Nat := 14
/-- `TOP`: the bit index of the leading mantissa bit in the adder (C4). -/
abbrev top : Nat := 19
/-- `BIG_SHIFT`. -/
abbrev bigShift : Nat := 64

/-! `DEC_NAN` (R12, R106; D10): a NaN whose sign and payload nothing fixes (log 3). -/

/-- The sign of the NaN that DECODE returns; no value is chosen. -/
opaque decNanSign : BitVec 1

/-- The fraction field of the NaN that DECODE returns, less one; no value is chosen. Every nonzero 52-bit fraction is one of
these plus one. -/
opaque decNanFractionPred : Fin 4503599627370495

/-- `DEC_NAN`: exponent field all ones and a fraction that is not zero, by construction. -/
def decNan : F64 := decNanSign ++ 0x7FF#11 ++ BitVec.ofNat 52 (decNanFractionPred.val + 1)

/-! The latencies (R12, R222; D7, D20). No rule depends on them and no definition of the model reads them (log 7). -/

opaque latEncode : Nat
opaque latDecode : Nat
opaque latAdd : Nat

/-! What the response port shows where the spec says "any value" (U10, U11): one value for each count (log 4). -/

/-- `rsp_r` where it is unspecified: while `rsp_valid = 0`, and when `rsp_ill = 1`. -/
opaque unspecifiedRspR : Nat → BitVec 64

/-- `rsp_ill` while `rsp_valid = 0`. -/
opaque unspecifiedRspIll : Nat → Bool

end Sys2Proof.Config
end

