-- ==== Sys2Proof/Machine/Operands.lean ====
section
/-! DEFINITION. The operand forms (30_encoding.md R75): the fields of a pattern and of a binary64, packing them, and what the
adder reads from an operand (R55, R56, R63, R70; 43_adder.md R139 to R141). -/

namespace Sys2Proof.Machine

/-! The SEF pattern. -/

/-- `sign = p[15]` (R56). -/
def signOf (p : Pattern16) : BitVec 1 := p.extractLsb' 15 1

/-- `exponent = p[14:11]` (R56). -/
def exponentOf (p : Pattern16) : BitVec 4 := p.extractLsb' 11 4

/-- `fraction = p[10:0]` (R56). -/
def fractionOf (p : Pattern16) : BitVec 11 := p.extractLsb' 0 11

/-- Unpack (R56). -/
def unpack (p : Pattern16) : Sef := ⟨signOf p, exponentOf p, fractionOf p⟩

/-- Pack: sign, exponent, fraction, the most significant first (R43, R55). -/
def pack (v : Sef) : Pattern16 := v.sign ++ v.exponent ++ v.fraction

/-- A pattern from numbers, each cut to the width of its field (R32). -/
def packNat (s : BitVec 1) (e f : Nat) : Pattern16 := pack ⟨s, BitVec.ofNat 4 e, BitVec.ofNat 11 f⟩

/-- The canonical NaN, `0x7801`: sign 0, exponent all ones, fraction 1 (R60). -/
def canonicalNaN : Pattern16 := packNat 0#1 Config.expAllOnes 1

/-- The infinity of a sign (R58). -/
def infinityOf (s : BitVec 1) : Pattern16 := packNat s Config.expAllOnes 0

/-- The zero of a sign (R58). -/
def zeroOf (s : BitVec 1) : Pattern16 := packNat s 0 0

/-- The pattern with bit 15 flipped: no operation of the block, the word of R173 and R181. -/
def negPattern (p : Pattern16) : Pattern16 := p ^^^ 0x8000#16

/-- The 12-bit significand, the implicit bit in front (R63, R139). -/
def sig12 (p : Pattern16) : Nat :=
  if exponentOf p ≠ 0#4 then 2 ^ Config.fracBits + (fractionOf p).toNat else (fractionOf p).toNat

/-- The effective exponent: the stored one, or 1 for a subnormal (R140). -/
def effExponent (p : Pattern16) : Nat :=
  if exponentOf p ≠ 0#4 then (exponentOf p).toNat else Config.expMinNormal

/-- The widened mantissa, eight guard bits below the significand (R141). -/
def widened (p : Pattern16) : Nat := sig12 p <<< Config.guardBits

/-! The binary64 pattern (R70). -/

/-- `S = X[63]`. -/
def f64Sign (x : F64) : BitVec 1 := x.extractLsb' 63 1

/-- `E = X[62:52]`. -/
def f64Exponent (x : F64) : Nat := (x.extractLsb' 52 11).toNat

/-- `F = X[51:0]`. -/
def f64Fraction (x : F64) : Nat := (x.extractLsb' 0 52).toNat

/-- A binary64 from its fields. -/
def packF64 (s : BitVec 1) (e f : Nat) : F64 := s ++ BitVec.ofNat 11 e ++ BitVec.ofNat 52 f

/-- The binary64 with bit 63 flipped (R173). -/
def negF64 (x : F64) : F64 := x ^^^ 0x8000000000000000#64

end Sys2Proof.Machine
end

