-- ==== Sys2Proof/Machine/Flags.lean ====
section
/-! DEFINITION. The conditions an operation tests. The block has no flag, condition code or status bit (10_state.md R24;
60_exceptions.md R196), so these are signals of one evaluation: the class predicates (30_encoding.md R58, R59; 43_adder.md R133)
and the guard, round and sticky bits (R150). -/

namespace Sys2Proof.Machine

/-- The class of a pattern, from exponent and fraction alone (R58). -/
def classOf (p : Pattern16) : SefClass :=
  if exponentOf p = 0#4 then
    if fractionOf p = 0#11 then .zero else .subnormal
  else if exponentOf p = 15#4 then
    if fractionOf p = 0#11 then .infinity else .nan
  else .normal

/-! The predicates of R59, on the bits they name. -/

def isZero (p : Pattern16) : Bool := p.extractLsb' 0 15 == 0#15
def isSubnormal (p : Pattern16) : Bool := exponentOf p == 0#4 && fractionOf p != 0#11
def isNormal (p : Pattern16) : Bool := exponentOf p != 0#4 && exponentOf p != 15#4
def isInf (p : Pattern16) : Bool := p.extractLsb' 0 15 == 0x7800#15
def isNaN (p : Pattern16) : Bool := exponentOf p == 15#4 && fractionOf p != 0#11
def isFinite (p : Pattern16) : Bool := exponentOf p != 15#4

/-! The classes of a binary64 (R70). -/

def f64IsNaN (x : F64) : Bool := f64Exponent x == 2047 && f64Fraction x != 0
def f64IsInf (x : F64) : Bool := f64Exponent x == 2047 && f64Fraction x == 0
def f64IsZero (x : F64) : Bool := f64Exponent x == 0 && f64Fraction x == 0
def f64IsSubnormal (x : F64) : Bool := f64Exponent x == 0 && f64Fraction x != 0
def f64IsFinite (x : F64) : Bool := f64Exponent x != 2047

/-! The bits that decide the adder's rounding (R150), of a normalised mantissa. -/

/-- `L`, the mantissa's own least significant retained bit. -/
def keptBit (m : Nat) : Bool := m.testBit 8

/-- `G`, the most significant guard bit. -/
def guardBit (m : Nat) : Bool := m.testBit 7

/-- `R`, the next bit. -/
def roundBit (m : Nat) : Bool := m.testBit 6

/-- `S`, the OR of the remaining guard bits; bit 0 carries the sticky accumulated before (R144). -/
def stickyBit (m : Nat) : Bool := m % 2 ^ 6 != 0

/-- Round up: guard set, and round or sticky set or the kept bit odd (R151). -/
def roundsUp (m : Nat) : Bool := guardBit m && (roundBit m || stickyBit m || keptBit m)

end Sys2Proof.Machine
end

