-- ==== Sys2Proof/Syntax.lean ====
section
/-! DEFINITION. The three operations of opcode_table.json, one constructor a row, each with the operands it uses
(10_state.md R28; 30_encoding.md R72). -/

namespace Sys2Proof

/-- An operation with its operands. Operand bits an operation does not use are no part of it (R28, R74 (d)). -/
inductive Instr where
  /-- `ENCODE(X)`, R80. -/
  | encode (x : F64)
  /-- `DECODE(p)`, R100. -/
  | decode (p : Pattern16)
  /-- `ADD(a, b)`, R130. -/
  | add (a b : Pattern16)
  deriving DecidableEq, Repr

end Sys2Proof
end

