-- ==== Sys2Proof/WellFormed.lean ====
section
/-! DEFINITION. What is well formed: every operation with every operand is (30_encoding.md R57, R74; 60_exceptions.md R192);
a request is unless its operation select is the reserved one (R73). -/

namespace Sys2Proof

/-- The operation select value that names no operation (R72, R73). -/
abbrev reservedSelect : BitVec 2 := 0b11#2

/-- A request names an operation. The one check there is: R74 lists no other illegal encoding. -/
def Request.wellFormed (r : Request) : Bool := r.op != reservedSelect

/-- Every operation is well formed: ENCODE takes all 2^64 patterns (R81), DECODE and ADD take all 2^16 (R57, R101, R130). -/
def Instr.wellFormed : Instr → Bool
  | .encode _ => true
  | .decode _ => true
  | .add _ _ => true

end Sys2Proof
end

