-- ==== Sys2Proof/Decode.lean ====
section
/-! DEFINITION. The request word, the decoder, and after it the encoder (30_encoding.md R71 to R74). -/

namespace Sys2Proof

/-- `REQ[81:0] = op, b, a`, the most significant first (R71). -/
def Request.word (r : Request) : ReqWord := r.op ++ r.b ++ r.a

/-- The fields of a request word: `op` is 81:80, `b` is 79:64, `a` is 63:0 (R71). -/
def requestOfWord (w : ReqWord) : Request where
  op := w.extractLsb' 80 2
  a  := w.extractLsb' 0 64
  b  := w.extractLsb' 64 16

/-- Why the decoder gives no instruction. -/
inductive DecodeError where
  /-- The operation select is `0b11` (R73). -/
  | reservedOperationSelect
  /-- The word has a bit above bit 81, so it is no request word (R71: there is one format and one length). -/
  | notARequestWord
  deriving DecidableEq, Repr

/-- Operand A cut to a pattern: `req_a[15:0]` (R28). -/
def patternOfA (a : BitVec 64) : Pattern16 := a.extractLsb' 0 16

/-- The decoder: the two bits `op` alone select the operation (R72), and each operation takes the operand bits of R28. -/
def decodeRequest (r : Request) : Except DecodeError Instr :=
  if r.op = 0b00#2 then .ok (.encode r.a)
  else if r.op = 0b01#2 then .ok (.decode (patternOfA r.a))
  else if r.op = 0b10#2 then .ok (.add (patternOfA r.a) r.b)
  else .error .reservedOperationSelect

/-- The decoder on a packed request word. -/
def decodeWord (w : ReqWord) : Except DecodeError Instr := decodeRequest (requestOfWord w)

/-- The request word that a number of `nbits` bits spells, if it spells one: a number with a bit above bit 81 does not. -/
def reqWordOfNat (nbits w : Nat) : Except DecodeError ReqWord :=
  let v := w % 2 ^ nbits
  if v < 2 ^ 82 then .ok (BitVec.ofNat 82 v) else .error .notARequestWord

/-- The decoder on a number, total on every number. -/
def decodeNat (nbits w : Nat) : Except DecodeError Instr :=
  match reqWordOfNat nbits w with
  | .ok v => decodeWord v
  | .error e => .error e

/-- What the decoder reads from an instruction whose bits are `w`, numbered as opcode_table.json numbers them (bit 0 is bit 0 of
the request word). -/
def decodeTableWord (nbits w : Nat) : Option Instr := (decodeNat nbits w).toOption

/-- The operation select of an operation (R72). -/
def Instr.select : Instr → BitVec 2
  | .encode _ => 0b00#2
  | .decode _ => 0b01#2
  | .add _ _ => 0b10#2

/-- The request that asks for an operation, the bits it does not use zero (R26, R28). -/
def Instr.request (i : Instr) : Request where
  op := i.select
  a  := match i with
    | .encode x => x
    | .decode p => p.setWidth 64
    | .add a _ => a.setWidth 64
  b  := match i with
    | .encode _ => 0#16
    | .decode _ => 0#16
    | .add _ b => b

/-- The encoder: the request word of an operation (R71, R72). -/
def encodeInstr (i : Instr) : ReqWord := i.request.word

/-- One row of opcode_table.json: a word is the row's when its bits under the mask are the row's match. -/
structure OpcodeRow where
  mnemonic  : String
  matchBits : ReqWord
  mask      : ReqWord
  deriving DecidableEq, Repr

/-- opcode_table.json, row by row. -/
def opcodeRows : List OpcodeRow :=
  [ ⟨"ENCODE", 0x000000000000000000000#82, 0x300000000000000000000#82⟩,
    ⟨"DECODE", 0x100000000000000000000#82, 0x300000000000000000000#82⟩,
    ⟨"ADD", 0x200000000000000000000#82, 0x300000000000000000000#82⟩ ]

/-- A word is a row's. -/
def OpcodeRow.matches (row : OpcodeRow) (w : ReqWord) : Bool := w &&& row.mask == row.matchBits

/-- The mnemonic of an operation's row (R72). -/
def Instr.mnemonic : Instr → String
  | .encode _ => "ENCODE"
  | .decode _ => "DECODE"
  | .add _ _ => "ADD"

end Sys2Proof
end

