-- ==== Sys2Proof/Machine/State.lean ====
section
/-! DEFINITION. The state: the block has no architectural state (10_state.md R21, R23, R24, R25, R40), so it is the request
port (R26), the response port (R27), the reset line (R36), the inputs the outside will drive next, and the counter of free values. -/

namespace Sys2Proof.Machine

/-- What the outside drives onto the block's inputs in one cycle: the reset line and the request port (R26, R36). -/
structure Drive where
  rst   : Bool
  valid : Bool
  op    : BitVec 2
  a     : BitVec 64
  b     : BitVec 16
  deriving DecidableEq, Repr

/-- The block with its ports. INVENTORY.md names the rule and the reset value of each field. -/
structure State where
  /-- Reset is asserted in this cycle (R36, R210). -/
  rstIn     : Bool
  /-- `req_valid` (R26). -/
  reqValid  : Bool
  /-- `req_op` (R26, R72). -/
  reqOp     : BitVec 2
  /-- `req_a` (R26). -/
  reqA      : BitVec 64
  /-- `req_b` (R26). -/
  reqB      : BitVec 16
  /-- What the outside drives in the cycles after this one, the next first (R23, R30; log 1). -/
  upcoming  : List Drive
  /-- `rsp_valid` (R27). -/
  rspValid  : Bool
  /-- `rsp_r` (R27, R29). -/
  rspR      : BitVec 64
  /-- `rsp_ill` (R27, R73). -/
  rspIll    : Bool
  /-- The model's own count of unspecified values shown so far (log 4). -/
  freeCount : Nat
  deriving DecidableEq, Repr

/-- Why the machine stops with a fault: never. Nobody raises one: ENCODE, DECODE and ADD never fail (60_exceptions.md R192),
there is no trap (R198), and "Nothing in this hardware is `fault` or `stuck`" (93_implementation_defined.md). -/
inductive Fault where
  deriving DecidableEq, Repr

/-- Why the model gives no meaning. -/
inductive Refusal where
  /-- Raised by an arm of exec whose instruction has no meaning yet; no arm is such. Safe: nothing follows from it. -/
  | notModelled (mnemonic : String)
  /-- Raised by step for a request with the reserved operation select `0b11`, which "a model refuses" (30_encoding.md R73,
  60_exceptions.md R201). It carries the state in which the hardware goes on: the request answered with `rsp_ill = 1` and an
  unspecified `rsp_r` (log 2). Safe: the model stops where the hardware goes on. -/
  | reservedOperationSelect (answered : State)
  deriving DecidableEq, Repr

/-- The machine right after reset: no response on the port (R36; D14) and no request presented. R36 leaves `rsp_r` and
`rsp_ill` unspecified and the inputs are the outside's: their values here are the model's choice (log 5). -/
def State.reset : State where
  rstIn := false
  reqValid := false
  reqOp := 0#2
  reqA := 0#64
  reqB := 0#16
  upcoming := []
  rspValid := false
  rspR := 0#64
  rspIll := false
  freeCount := 0

end Sys2Proof.Machine
end

