-- ==== Sys2Proof/Machine/Ops.lean ====
section
/-! DEFINITION. The shared operations: the shift with sticky and the rounding of 00_scope.md R16 and R17, and the operations on
the ports (10_state.md R26 to R30, R36). There is no memory to read or write (20_memory.md R40) and no exception to take or to
return from (60_exceptions.md R198): no operation stands here for them. -/

namespace Sys2Proof.Machine

/-- Shift right with sticky (R16). The third line is FPA's clause for large shifts, which no shift of the adder reaches (R143). -/
def srs (m d : Nat) : Nat :=
  if d = 0 then m
  else if d < Config.bigShift then (m >>> d) ||| (if m % 2 ^ d ≠ 0 then 1 else 0)
  else if m ≠ 0 then 1 else 0

/-- `rne(n / 2^d)` for `d >= 1`: the nearest integer, ties to even (R17; D9). -/
def rne (n d : Nat) : Nat :=
  let q := n >>> d
  let rem := n % 2 ^ d
  let half := 2 ^ (d - 1)
  if half < rem ∨ (rem = half ∧ q % 2 = 1) then q + 1 else q

/-- A 16-bit result in the 64-bit response: `zext_64` (R29; D6). -/
def zext64 (p : Pattern16) : BitVec 64 := p.setWidth 64

/-! The ports. -/

/-- The request on the request port (R26). -/
def State.request (s : State) : Request := ⟨s.reqOp, s.reqA, s.reqB⟩

/-- The inputs after this cycle: what the outside drives next, or an idle port where it drives nothing more (log 1). -/
def State.advance (s : State) : State :=
  match s.upcoming with
  | [] => { s with rstIn := false, reqValid := false }
  | d :: ds => { s with rstIn := d.rst, reqValid := d.valid, reqOp := d.op, reqA := d.a, reqB := d.b, upcoming := ds }

/-- Deliver a result: `rsp_valid = 1`, `rsp_ill = 0`, the result on `rsp_r` (R27, R29). -/
def State.respond (s : State) (r : BitVec 64) : State :=
  { s with rspValid := true, rspR := r, rspIll := false }

/-- No response in this cycle: `rsp_valid = 0`, and `rsp_r` and `rsp_ill` are any values (R27, R36; U11; log 4). -/
def State.noResponse (s : State) : State :=
  { s with
    rspValid := false
    rspR := Config.unspecifiedRspR s.freeCount
    rspIll := Config.unspecifiedRspIll s.freeCount
    freeCount := s.freeCount + 1 }

/-- The hardware's answer to the reserved operation select: `rsp_valid = 1`, `rsp_ill = 1`, `rsp_r` any value (R27, R73; U10). -/
def State.answerReserved (s : State) : State :=
  { s with
    rspValid := true
    rspR := Config.unspecifiedRspR s.freeCount
    rspIll := true
    freeCount := s.freeCount + 1 }

/-- What the block does in a cycle. -/
inductive Work where
  /-- Reset is asserted (R36). -/
  | reset
  /-- No request is presented (R26). -/
  | idle
  /-- The request names this operation (R72). -/
  | run (i : Instr)
  /-- The request names no operation (R73). -/
  | refuse
  deriving DecidableEq, Repr

/-- What the block does in this cycle. Reset comes first: a request is dropped when reset is asserted (R36; log 6). -/
def State.work (s : State) : Work :=
  if s.rstIn then .reset
  else if s.reqValid then
    match decodeRequest s.request with
    | .ok i => .run i
    | .error _ => .refuse
  else .idle

/-- A request put on the request port in this cycle, reset not asserted (R26). -/
def State.present (s : State) (r : Request) : State :=
  { s with rstIn := false, reqValid := true, reqOp := r.op, reqA := r.a, reqB := r.b }

/-- A number put on the request port as a request word; a number that is no request word leaves the port idle. -/
def State.presentNat (s : State) (nbits w : Nat) : State :=
  match reqWordOfNat nbits w with
  | .ok v => s.present (requestOfWord v)
  | .error _ => { s with rstIn := false, reqValid := false }

/-- The cycle in which the outside presents a request. -/
def Drive.ofRequest (r : Request) : Drive := ⟨false, true, r.op, r.a, r.b⟩

end Sys2Proof.Machine
end

