-- ==== Sys2Proof/Machine/Adder.lean ====
section
/-! DEFINITION. The Adder: ADD in the stages S1 to S8 of 43_adder.md. The values between the stages are signals of one
evaluation (10_state.md R34), natural numbers within the widths of R131. -/

namespace Sys2Proof.Machine

/-- What the alignment shifter hands on: the larger exponent and both mantissas (R131, R142). -/
structure Aligned where
  x  : Nat
  ma : Nat
  mb : Nat
  deriving DecidableEq, Repr

/-- Sign, running exponent and mantissa of the result, from S5 to S8 (R131: `s`, `x`, then `m`, `mn` or `q`). -/
structure Interim where
  s : BitVec 1
  x : Nat
  m : Nat
  deriving DecidableEq, Repr

/-- S4: shift the mantissa with the smaller exponent right, its lost bits into the sticky bit (R142). -/
def align (xa ma xb mb : Nat) : Aligned :=
  if xb ≤ xa then ⟨xa, ma, srs mb (xa - xb)⟩ else ⟨xb, srs ma (xb - xa), mb⟩

/-- S5: add on equal signs (R145); else subtract the smaller from the larger by a three-way comparison, with sign 0 on equality
(R146; D13, C6). -/
def combine (sa sb : BitVec 1) (al : Aligned) : Interim :=
  if sa = sb then ⟨sa, al.x, al.ma + al.mb⟩
  else if al.mb < al.ma then ⟨sa, al.x, al.ma - al.mb⟩
  else if al.ma < al.mb then ⟨sb, al.x, al.mb - al.ma⟩
  else ⟨0#1, al.x, 0⟩

/-- S6, right normalisation (R147). The loop runs at most once because the mantissa has 21 bits (R149, R186). -/
def rightNormalise (t : Interim) : Interim :=
  if 2 ^ (Config.top + 1) ≤ t.m then ⟨t.s, t.x + 1, srs t.m 1⟩ else t

/-- S6, the loop of left normalisation: while the leading bit is below `TOP` and the exponent above 1 (R148). It answers exponent
and mantissa. -/
def leftShifts : Nat → Nat → Nat × Nat
  | 0, m => (0, m)
  | 1, m => (1, m)
  | x + 2, m => if m < 2 ^ Config.top then leftShifts (x + 1) (m <<< 1) else (x + 2, m)

/-- S6, left normalisation (R148). It also runs on a zero mantissa: there is no early exit (R158). -/
def leftNormalise (t : Interim) : Interim :=
  ⟨t.s, (leftShifts t.x t.m).1, (leftShifts t.x t.m).2⟩

/-- S7: the 12 kept bits, rounded to nearest even (R150, R151), and the rounding carry (R152). -/
def roundGRS (t : Interim) : Interim :=
  let q := (t.m >>> Config.guardBits) + (if roundsUp t.m then 1 else 0)
  if 2 ^ 12 ≤ q then ⟨t.s, t.x + 1, q >>> 1⟩ else ⟨t.s, t.x, q⟩

/-- S8: zero, overflow, subnormal, normal, in this order (R153 to R156). -/
def finalise (t : Interim) : Pattern16 :=
  if t.m = 0 then zeroOf t.s
  else if Config.expAllOnes ≤ t.x then infinityOf t.s
  else if t.x = Config.expMinNormal ∧ t.m < 2 ^ Config.fracBits then packNat t.s 0 t.m
  else packNat t.s t.x t.m

/-- S3 to S5: the combined mantissa of two operands (R139 to R146). -/
def combined (a b : Pattern16) : Interim :=
  combine (signOf a) (signOf b) (align (effExponent a) (widened a) (effExponent b) (widened b))

/-- S3 to S6: the normalised mantissa (R139 to R149). -/
def normalised (a b : Pattern16) : Interim := leftNormalise (rightNormalise (combined a b))

/-- S3 to S8: the full mantissa addition path (R138). -/
def addFinite (a b : Pattern16) : Pattern16 := finalise (roundGRS (normalised a b))

/-- `ADD(a, b)` (R162): S1 and S2, the special cases in FPA's order (R133 to R138; D11, C2), then the full path. -/
def addPatterns (a b : Pattern16) : Pattern16 :=
  if isNaN a || isNaN b then canonicalNaN
  else if isInf a || isInf b then
    if isInf a && isInf b && signOf a != signOf b then canonicalNaN
    else if isInf a then a
    else b
  else if isZero a then b
  else if isZero b then a
  else addFinite a b

/-- ADD as an operation of the port (R130, R161). -/
def execAdd (a b : Pattern16) (s : State) : Host.Outcome State Fault Refusal :=
  .next (s.respond (zext64 (addPatterns a b)))

end Sys2Proof.Machine
end

