-- ==== Sys2Proof/Machine/Codec.lean ====
section
/-! DEFINITION. The Codec: ENCODE (40_codec_encode.md) and DECODE (41_codec_decode.md). -/

namespace Sys2Proof.Machine

/-- ENCODE's subnormal path, `exp_bits <= 0` (R87): `sig` is the 53-bit significand and `e` the binary exponent. The clamp to
`FRAC_MAX` is FPA's own (D12, C3); a shift of 55 or more gives 0 (R91, R217). -/
def encodeSubnormal (s : BitVec 1) (e : Int) (sig : Nat) : Pattern16 :=
  let sh := (35 - e).toNat
  let q := if 55 ≤ sh then 0 else rne sig sh
  packNat s 0 (if q > Config.fracMax then Config.fracMax else q)

/-- ENCODE's normal path, `1 <= exp_bits <= 14` (R89): the fraction rounded, its carry moved into the exponent, and the overflow
test repeated. -/
def encodeNormal (s : BitVec 1) (xb f : Nat) : Pattern16 :=
  let q := rne f 41
  if q > Config.fracMax then
    if xb + 1 ≥ Config.expAllOnes then infinityOf s else packNat s (xb + 1) 0
  else packNat s xb q

/-- ENCODE of a binary64 normal operand with fields `s`, `ex`, `f` (R85, R86, R90). -/
def encodeFinite (s : BitVec 1) (ex f : Nat) : Pattern16 :=
  let e : Int := (ex : Int) - 1023
  let xb : Int := e + Config.bias
  if xb ≤ 0 then encodeSubnormal s e (2 ^ 52 + f)
  else if Config.expAllOnes ≤ xb then infinityOf s
  else encodeNormal s xb.toNat f

/-- `ENCODE(X)` (R91, in the order of R90). -/
def encodeF64 (x : F64) : Pattern16 :=
  if f64IsNaN x then canonicalNaN
  else if f64IsInf x then infinityOf (f64Sign x)
  else if f64IsZero x then zeroOf (f64Sign x)
  else if f64IsSubnormal x then zeroOf (f64Sign x)
  else encodeFinite (f64Sign x) (f64Exponent x) (f64Fraction x)

/-- DECODE of a subnormal: `k` is the index of the fraction's most significant 1 (R103). -/
def decodeSubnormal (s : BitVec 1) (f : Nat) : F64 :=
  let k := Nat.log2 f
  packF64 s (1006 + k) ((f - 2 ^ k) <<< (52 - k))

/-- DECODE of a normal (R104). -/
def decodeNormal (s : BitVec 1) (e f : Nat) : F64 := packF64 s (e + 1016) (f <<< 41)

/-- `DECODE(p)` (R107). -/
def decodePattern (p : Pattern16) : F64 :=
  if isNaN p then Config.decNan
  else if isInf p then packF64 (signOf p) 0x7FF 0
  else if isZero p then packF64 (signOf p) 0 0
  else if isSubnormal p then decodeSubnormal (signOf p) (fractionOf p).toNat
  else decodeNormal (signOf p) (exponentOf p).toNat (fractionOf p).toNat

/-- ENCODE as an operation of the port: it reads and writes no state but the response (R80, R93). -/
def execEncode (x : F64) (s : State) : Host.Outcome State Fault Refusal :=
  .next (s.respond (zext64 (encodeF64 x)))

/-- DECODE as an operation of the port (R100, R109). -/
def execDecode (p : Pattern16) (s : State) : Host.Outcome State Fault Refusal :=
  .next (s.respond (decodePattern p))

end Sys2Proof.Machine
end

