-- ==== Sys2Proof/Machine/Dispatch.lean ====
section
/-! DEFINITION. The dispatch: one arm a constructor of Instr (30_encoding.md R72). -/

namespace Sys2Proof.Machine

def exec (i : Instr) (s : State) : Host.Outcome State Fault Refusal :=
  match i with
  | .encode x => Sys2Proof.Machine.execEncode x s
  | .decode p => Sys2Proof.Machine.execDecode p s
  | .add a b => Sys2Proof.Machine.execAdd a b s

end Sys2Proof.Machine
end

