-- ==== Sys2Proof/Machine/Step.lean ====
section
/-! DEFINITION. One step: one cycle of the port, one request as one atomic step (10_state.md R30; log 1). -/

namespace Sys2Proof.Machine

/-- One cycle: sample the inputs, answer the request they present, move on to the next inputs. -/
def step (s : State) : Host.Outcome State Fault Refusal :=
  match s.work with
  | .reset => .next s.advance.noResponse
  | .idle => .next s.advance.noResponse
  | .run i => exec i s.advance
  | .refuse => .refused (.reservedOperationSelect s.advance.answerReserved)

/-- The state with the request word `w` on the request port, which is what the very next step answers (log 1). -/
def State.withFetchWord (s : State) (nbits w : Nat) : State := s.presentNat nbits w

end Sys2Proof.Machine
end

