-- ==== Sys2Proof/Machine/BinaryString.lean ====
section
/-! DEFINITION. The Codec's host-side string functions (42_codec_binary_string.md R115 to R121). They have no operation select and
no port (00_scope.md R7; D18), so no step runs them. -/

namespace Sys2Proof.Machine

/-- A `BinString`: a finite sequence of characters, compared by identity (R115; D17). -/
abbrev BinString := List Char

/-- The one error a string function raises (60_exceptions.md R190); it carries nothing (R193). -/
inductive StringError where
  /-- The filtered string has not 16 characters (R119), or hexadecimal text is not base 16 (R125). -/
  | formatError
  deriving DecidableEq, Repr

/-- A bit as a character (R116). -/
def bitChar (b : Bool) : Char := if b then '1' else '0'

/-- `toBinaryString`: 16 characters, the most significant bit first (R116). -/
def toBinaryString (p : Pattern16) : BinString :=
  (List.range 16).map fun i => bitChar (p.getLsbD (15 - i))

/-- A character that is kept (R118; C8). -/
def isBinaryDigit (c : Char) : Bool := c == '0' || c == '1'

/-- Every character that is neither '0' nor '1' is discarded (R118). -/
def binaryDigits (s : BinString) : BinString := s.filter isBinaryDigit

/-- The number that a digit sequence spells, its first digit the most significant (R117). -/
def binaryValue (t : BinString) : Nat := t.foldl (fun p c => p * 2 + (if c = '1' then 1 else 0)) 0

/-- `fromBinaryString` (R117, R119). -/
def fromBinaryString (s : BinString) : Except StringError Pattern16 :=
  let t := binaryDigits s
  if t.length = 16 then .ok (BitVec.ofNat 16 (binaryValue t)) else .error .formatError

end Sys2Proof.Machine
end

