-- ==== Sys2Proof/Machine/HexString.lean ====
section
/-! DEFINITION. The hexadecimal contract of the excluded presentation layer, as far as the spec states it (42_codec_binary_string.md
R124, R125; 00_scope.md R8 records it "so that nothing FPA states is lost"). What it does not state is answered `notStated` (log 9). -/

namespace Sys2Proof.Machine

/-- The value of a digit '0' to '9' or 'a' to 'f'. -/
def lowerHexDigit (c : Char) : Option Nat :=
  if '0' ≤ c ∧ c ≤ '9' then some (c.toNat - 48)
  else if 'a' ≤ c ∧ c ≤ 'f' then some (c.toNat - 87)
  else none

/-- A letter 'A' to 'F': whether it is a digit on input is not stated (91_not_in_source.md N12). -/
def isUpperHexLetter (c : Char) : Bool := 'A' ≤ c && c ≤ 'F'

/-- A sign or white space, about which nothing is stated (N12). -/
def isSignOrSpace (c : Char) : Bool := c == '+' || c == '-' || c.isWhitespace

/-- The number that lower-case base-16 digits spell, the first the most significant; none where some character is no such digit. -/
def lowerHexValue (t : List Char) : Option Nat :=
  t.foldl (fun acc c => do let n ← acc; let d ← lowerHexDigit c; pure (n * 16 + d)) (some 0)

/-- A text is an output of the hexadecimal rendering: `0x` and lower-case digits that spell the pattern as an unsigned integer, in
any number of digits but none at all (R124; U7). -/
def isHexOutput (p : Pattern16) (s : List Char) : Bool :=
  match s with
  | '0' :: 'x' :: t => !t.isEmpty && lowerHexValue t == some p.toNat
  | _ => false

/-- What is known of reading a hexadecimal text. -/
inductive HexReading where
  /-- It is read as this pattern. -/
  | pattern (p : Pattern16)
  /-- It is not valid base-16 text: `FormatError` (R125). -/
  | formatError
  /-- The spec leaves it open: digit case, a value above 0xFFFF, a sign, white space, no digit (N12; U8; D28). -/
  | notStated
  deriving DecidableEq, Repr

/-- The optional prefix `0x` or `0X` stripped (R125). -/
def stripHexPrefix (s : List Char) : List Char :=
  match s with
  | '0' :: 'x' :: t => t
  | '0' :: 'X' :: t => t
  | t => t

/-- A character that is no part of base-16 text under any reading: no digit, no letter 'A' to 'F', no sign and no white space. -/
def isForeignToHex (c : Char) : Bool := (lowerHexDigit c).isNone && !isUpperHexLetter c && !isSignOrSpace c

/-- Reading a hexadecimal text as far as R125 states it. A text that would be read but for its signs and white space, wherever they
stand, before a prefix too ("-0x1", " 0x3c00"), or but for its letters 'A' to 'F', is `notStated` (N12; U8; D28).
DESIGN CHOICE (log 9): `formatError` is answered when, signs and white space left out and then one prefix stripped, a foreign
character is left; an underscore between digits and a second prefix ("0x0x1") count as foreign. -/
def readHex (s : List Char) : HexReading :=
  let t := stripHexPrefix s
  if t.isEmpty then .notStated
  else match lowerHexValue t with
    | some n => if n < 2 ^ 16 then .pattern (BitVec.ofNat 16 n) else .notStated
    | none =>
      if (stripHexPrefix (s.filter (fun c => !isSignOrSpace c))).any isForeignToHex then .formatError else .notStated

end Sys2Proof.Machine
end

