-- ==== Sys2Proof/Machine/Value.lean ====
section
/-! DEFINITION. The exact values of patterns (30_encoding.md R62, R63, R66) and of binary64 patterns (R70) as integers, so that a
real-number formula of the spec is exact mathematics (00_scope.md R18). The unit of a SEF value is `2^-17` (R62), the unit of a
binary64 value is `2^-1074` (R70), and one is `2^1057` of the other. -/

namespace Sys2Proof.Machine

/-- The magnitude of a finite pattern in units of `2^-17` (R62, R140). -/
def sefMagnitude (p : Pattern16) : Nat := sig12 p * 2 ^ (effExponent p - 1)

/-- A magnitude with a sign bit. -/
def signed (s : BitVec 1) (m : Nat) : Int := if s = 1#1 then -(m : Int) else m

/-- `val(p)` of a finite pattern in units of `2^-17` (R62). -/
def sefValue (p : Pattern16) : Int := signed (signOf p) (sefMagnitude p)

/-- The magnitude of a finite binary64 in units of `2^-1074` (R70). -/
def f64Magnitude (x : F64) : Nat :=
  if f64Exponent x = 0 then f64Fraction x else (2 ^ 52 + f64Fraction x) * 2 ^ (f64Exponent x - 1)

/-- The value of a finite binary64 in units of `2^-1074` (R70). -/
def f64Value (x : F64) : Int := signed (f64Sign x) (f64Magnitude x)

/-- The unit `2^-17` in units of `2^-1074`. -/
abbrev sefUnit : Nat := 2 ^ 1057

end Sys2Proof.Machine
end

