-- ==== Sys2Proof/Safety.lean ====
section
/-! DEFINITION. The terms claims use: what a cycle leaves, the invariant of the response port, rounding to nearest as a relation
on exact values, and a requester's sequence of requests. None of it repeats how the operations compute. -/

namespace Sys2Proof.Machine

/-! What a cycle leaves. -/

/-- The state is left as it was but for the response port, on which the result stands (R27, R29, R80, R100, R130). -/
def State.answeredWith (s t : State) (r : BitVec 64) : Prop :=
  t.rspValid = true ∧ t.rspIll = false ∧ t.rspR = r ∧
  t.rstIn = s.rstIn ∧ t.reqValid = s.reqValid ∧ t.reqOp = s.reqOp ∧ t.reqA = s.reqA ∧ t.reqB = s.reqB ∧
  t.upcoming = s.upcoming ∧ t.freeCount = s.freeCount

/-- The inputs of `t` are what the outside drives after the cycle of `s` (log 1). -/
def State.inputsAfter (s t : State) : Prop :=
  match s.upcoming with
  | [] => t.rstIn = false ∧ t.reqValid = false ∧ t.upcoming = []
  | d :: ds => t.rstIn = d.rst ∧ t.reqValid = d.valid ∧ t.reqOp = d.op ∧ t.reqA = d.a ∧ t.reqB = d.b ∧ t.upcoming = ds

/-- A pattern that ENCODE or ADD may produce: no NaN but the canonical one (R60, R182). -/
def canonical (p : Pattern16) : Bool := !isNaN p || p == canonicalNaN

/-- A 64-bit response that holds a pattern: bits 63:16 zero (R29), the pattern canonical (R182). -/
def isPatternResult (r : BitVec 64) : Bool := r.extractLsb' 16 48 == 0#48 && canonical (r.extractLsb' 0 16)

/-- A 64-bit response that holds a decoded value: a NaN (R106), an infinity (R105), a zero (R102), or a binary64 normal number in
the range of the format with at most 11 fraction bits (R103, R104, R108). -/
def isDecodedResult (r : BitVec 64) : Bool :=
  f64IsNaN r || f64IsInf r || f64IsZero r ||
    (1006 ≤ f64Exponent r && f64Exponent r ≤ 1030 && f64Fraction r % 2 ^ 41 == 0)

/-- The invariant of the response port: a response of the model is never marked illegal (R27, R73) and holds a result that some
operation produces. -/
def State.portLegal (s : State) : Bool :=
  !s.rspValid || (!s.rspIll && (isPatternResult s.rspR || isDecodedResult s.rspR))

/-! The function of R48. -/

/-- `F(op, a, b)` of 20_memory.md R48, for an operation with its operands. -/
def resultOf : Instr → BitVec 64
  | .encode x => zext64 (encodeF64 x)
  | .decode p => decodePattern p
  | .add a b => zext64 (addPatterns a b)

/-- The requester presents the request `r` in this cycle and `rs` in the cycles after it, one a cycle, without a reset. -/
def State.presenting (s : State) (r : Request) (rs : List Request) : Prop :=
  s.rstIn = false ∧ s.reqValid = true ∧ s.request = r ∧ s.upcoming = rs.map Drive.ofRequest

/-! Rounding to nearest, ties to even, as relations. -/

/-- `q` is the integer nearest to `n / d`, and the even one when two are equally near (R17; D9). -/
def IsNearestEven (n d q : Nat) : Prop :=
  2 * n ≤ (2 * q + 1) * d ∧ 2 * q * d ≤ 2 * n + d ∧
  (2 * n = (2 * q + 1) * d ∨ 2 * q * d = 2 * n + d → q % 2 = 0)

/-- `sig` and `x` spell a magnitude of the format with unbounded exponent: a 12-bit significand with leading 1, or a smaller one
at `x = 1` (R159). -/
def GridForm (sig x : Nat) : Prop := 1 ≤ x ∧ sig < 4096 ∧ (2048 ≤ sig ∨ x = 1)

/-- A magnitude, in units of `2^-17`, of the form `sig * 2^(x-1)` (R159). -/
def OnGrid (v : Nat) : Prop := ∃ sig x, GridForm sig x ∧ v = sig * 2 ^ (x - 1)

/-- A magnitude of that form with an even `sig` (R159). -/
def EvenOnGrid (v : Nat) : Prop := ∃ sig x, GridForm sig x ∧ sig % 2 = 0 ∧ v = sig * 2 ^ (x - 1)

/-- The distance of two naturals. -/
def gap (m n : Nat) : Nat := (m - n) + (n - m)

/-- `r` is `t` rounded to the nearest magnitude on the grid, ties to the even `sig` (R159). -/
def RoundsTo (t r : Nat) : Prop :=
  OnGrid r ∧ ∀ g, OnGrid g → gap t r ≤ gap t g ∧ (gap t g = gap t r → g ≠ r → EvenOnGrid r)

/-- The exact sum of two finite patterns in units of `2^-17`, `t` of R159. -/
def exactSum (a b : Pattern16) : Int := sefValue a + sefValue b

/-- The sign bit of an integer. -/
def signBit (t : Int) : BitVec 1 := if t < 0 then 1#1 else 0#1

/-- The place of a pattern that is no NaN in the order of R66 and R172: zeros equal, infinities outermost. -/
def orderKey (p : Pattern16) : Int := signed (signOf p) (p.extractLsb' 0 15).toNat

end Sys2Proof.Machine
end

