-- ==== Sys2Proof/Certificates/Slice0/Obligations.lean ====
section
/-! DEFINITION. The statements for the provers. Exact values are integers: a SEF value in units of `2^-17`, a binary64 value in
units of `2^-1074` (Machine/Value.lean). Where a docstring names a decision D<n> of 92_eei_decisions.md or a log entry, the statement
rests on that choice. -/

open Sys2Proof Sys2Proof.Machine

/-! ## The port and the step -/

/-- When reset is not asserted and a request that names an operation is presented, a step is that operation on the state whose
inputs have moved on to what the outside drives next. Log 1: the moving on is the model's own input list. -/
def Obligations.StepRunsTheDecodedRequest : Prop :=
  ∀ (s : State) (i : Instr), s.rstIn = false → s.reqValid = true → decodeRequest ⟨s.reqOp, s.reqA, s.reqB⟩ = .ok i →
    step s = exec i s.advance ∧ s.inputsAfter s.advance ∧
    s.advance.rspValid = s.rspValid ∧ s.advance.rspR = s.rspR ∧ s.advance.rspIll = s.rspIll

/-- A word that the decoder reads as an operation, put on the request port, is what the very next step runs. Log 1. -/
def Obligations.PlacedWordIsWhatTheNextStepRuns : Prop :=
  ∀ (s : State) (nbits w : Nat) (i : Instr), decodeTableWord nbits w = some i →
    step (s.withFetchWord nbits w) = exec i (s.withFetchWord nbits w).advance ∧
    (s.withFetchWord nbits w).upcoming = s.upcoming

/-- A cycle without a request and without reset gives no response and does nothing else. R27, R36 and R54 (D3, D14); what `rsp_r`
and `rsp_ill` show is free (log 4), so nothing is said of them. Log 1, the model's own choice: the inputs move on by the model's input
list, and an idle cycle has no response because the model answers a request in the step that takes it. -/
def Obligations.IdleCycleGivesNoResponse : Prop :=
  ∀ s : State, s.rstIn = false → s.reqValid = false →
    ∃ t, step s = .next t ∧ t.rspValid = false ∧ s.inputsAfter t

/-- A cycle with reset asserted drops the request on the port: no response is delivered. R36, R210 (D14). That
reset comes before the request of its cycle is the model's choice (log 6), and so is the input list (log 1). -/
def Obligations.ResetCycleDropsTheRequest : Prop :=
  ∀ s : State, s.rstIn = true → ∃ t, step s = .next t ∧ t.rspValid = false ∧ s.inputsAfter t

/-- A request with the reserved select is refused, and the refusal carries the hardware's answer: `rsp_valid = 1` and
`rsp_ill = 1`, with nothing said of `rsp_r`. R73 (D4). The form of the refusal (log 2), that reset
comes first (log 6) and the input list (log 1) are the model's choices. -/
def Obligations.ReservedSelectIsRefused : Prop :=
  ∀ s : State, s.rstIn = false → s.reqValid = true → s.reqOp = 0b11#2 →
    ∃ t, step s = .refused (.reservedOperationSelect t) ∧ t.rspValid = true ∧ t.rspIll = true ∧ s.inputsAfter t

/-- The machine never faults, and it answers a next state exactly when the inputs do not ask for the reserved select. R73 (D4),
R192, and "Nothing in this hardware is `fault` or `stuck`" of 93_implementation_defined.md. That a reserved request in a cycle with
reset asserted is dropped and not refused is the model's choice (log 6; R36, D14). -/
def Obligations.StepGoesOnUnlessReserved : Prop :=
  ∀ s : State, (∀ f, step s ≠ .fault f) ∧
    ((∃ t, step s = .next t) ↔ ¬ (s.rstIn = false ∧ s.reqValid = true ∧ s.reqOp = 0b11#2))

/-- R192: the three operations never fail, whatever the operand and the state: the response is there and is not marked illegal. -/
def Obligations.OperationsNeverFail : Prop :=
  ∀ (i : Instr) (s : State), ∃ t, exec i s = .next t ∧ t.rspValid = true ∧ t.rspIll = false

/-- R184: the same request gives the same response in any two states, whatever came before. -/
def Obligations.SameRequestSameResponse : Prop :=
  ∀ s t : State, s.rstIn = false → t.rstIn = false → s.reqValid = true → t.reqValid = true →
    s.reqOp = t.reqOp → s.reqA = t.reqA → s.reqB = t.reqB → s.reqOp ≠ 0b11#2 →
    ∃ s' t', step s = .next s' ∧ step t = .next t' ∧
      s'.rspValid = t'.rspValid ∧ s'.rspIll = t'.rspIll ∧ s'.rspR = t'.rspR

/-- A sequence of requests, one a cycle, is answered one response a request, in request order, each response the function R48 of its
own request, and no response after the last. R30 (D7), R48; log 1. -/
def Obligations.ResponsesComeInRequestOrder : Prop :=
  ∀ (rs : List Request) (r : Request) (s : State), s.presenting r rs → (∀ q ∈ r :: rs, q.wellFormed = true) →
    (∀ (k : Nat) (q : Request), (r :: rs)[k]? = some q →
      ∃ (t : State) (i : Instr), Sys2Proof.core.run (k + 1) s = Host.Outcome.next t ∧ decodeRequest q = .ok i ∧
        t.rspValid = true ∧ t.rspIll = false ∧ t.rspR = resultOf i) ∧
    ∃ t : State, Sys2Proof.core.run (rs.length + 2) s = Host.Outcome.next t ∧ t.rspValid = false

/-- The response port stays legal from every legal state: a response the model delivers is never marked illegal and is a canonical
pattern with zeros above it, or a decoded value. R27, R29 (D3, D6), R60, R108, R182. -/
def Obligations.ResponsePortStaysLegal : Prop :=
  ∀ s t : State, s.portLegal = true → step s = .next t → t.portLegal = true

/-- After reset there is no response on the port, and the response port is legal. R36 (D14). -/
def Obligations.ResetHasNoResponse : Prop :=
  State.reset.rspValid = false ∧ State.reset.portLegal = true

/-! ## Encodings -/

/-- Sample request words of 95_test_vectors.md section 3 decode to the operations they stand for, and the reserved words of its section
2.6 to none. R71 and R72 (D3). -/
def Obligations.SampleWordsDecode : Prop :=
  decodeTableWord 88 0x000003FF8000000000000 = some (.encode 0x3FF8000000000000#64) ∧
  decodeTableWord 88 0x100000000000000004800 = some (.decode 0x4800#16) ∧
  decodeTableWord 88 0x242000000000000003C00 = some (.add 0x3C00#16 0x4200#16) ∧
  decodeTableWord 88 0x300000000000000000000 = none ∧
  decodeTableWord 88 0x3FFFFFFFFFFFFFFFFFFFF = none

/-- Decoding the word of any operation gives it back; and the word of a decoded operation keeps every bit the operation uses, so no
such bit is dropped. R71, R72 (D3), R28 (D5). -/
def Obligations.DecodeAndEncodeAgree : Prop :=
  (∀ i : Instr, i.wellFormed = true →
    decodeWord (encodeInstr i) = .ok i ∧ decodeTableWord 88 (encodeInstr i).toNat = some i) ∧
  ∀ (w : ReqWord) (i : Instr), decodeWord w = .ok i →
    encodeInstr i = w &&& (match i with
      | .encode _ => 0x30000FFFFFFFFFFFFFFFF#82
      | .decode _ => 0x30000000000000000FFFF#82
      | .add _ _ => 0x3FFFF000000000000FFFF#82)

/-- Each word is read as the operation of the row of opcode_table.json it matches, and as none where it matches no row. R72 (D3). -/
def Obligations.DecoderFollowsTheOpcodeTable : Prop :=
  ∀ w : ReqWord,
    (∀ row ∈ opcodeRows, (row.matches w = true ↔ ∃ i, decodeWord w = .ok i ∧ i.mnemonic = row.mnemonic)) ∧
    ((∀ row ∈ opcodeRows, row.matches w = false) ↔ decodeWord w = .error .reservedOperationSelect)

/-- Operand bits an operation does not use do not change what is run: `b` for ENCODE, `a[63:16]` and `b` for DECODE, `a[63:16]` for
ADD. R28 (D5). -/
def Obligations.UnusedOperandBitsAreIgnored : Prop :=
  ∀ (a a' : BitVec 64) (b b' : BitVec 16),
    decodeRequest ⟨0b00#2, a, b⟩ = decodeRequest ⟨0b00#2, a, b'⟩ ∧
    (a.toNat % 2 ^ 16 = a'.toNat % 2 ^ 16 →
      decodeRequest ⟨0b01#2, a, b⟩ = decodeRequest ⟨0b01#2, a', b'⟩ ∧
      decodeRequest ⟨0b10#2, a, b⟩ = decodeRequest ⟨0b10#2, a', b⟩)

/-- Pack and unpack are inverse, and a pattern is its fields weighted by their places. R55, R56. -/
def Obligations.PackAndUnpackAreInverse : Prop :=
  (∀ p : Pattern16, pack (unpack p) = p) ∧ (∀ v : Sef, unpack (pack v) = v) ∧
  ∀ v : Sef, (pack v).toNat = v.sign.toNat * 32768 + v.exponent.toNat * 2048 + v.fraction.toNat

/-- R58: exponent and fraction alone give the class, by the table, and the sign bit never matters;
the canonical NaN has sign 0 and fraction 1. -/
def Obligations.ClassFollowsTheTable : Prop :=
  (classOf 0x7801#16 = .nan ∧ signOf 0x7801#16 = 0#1 ∧ fractionOf 0x7801#16 = 1#11) ∧
  ∀ p : Pattern16,
    (classOf p = .zero ↔ (exponentOf p).toNat = 0 ∧ (fractionOf p).toNat = 0) ∧
    (classOf p = .subnormal ↔ (exponentOf p).toNat = 0 ∧ (fractionOf p).toNat ≠ 0) ∧
    (classOf p = .normal ↔ 1 ≤ (exponentOf p).toNat ∧ (exponentOf p).toNat ≤ 14) ∧
    (classOf p = .infinity ↔ (exponentOf p).toNat = 15 ∧ (fractionOf p).toNat = 0) ∧
    (classOf p = .nan ↔ (exponentOf p).toNat = 15 ∧ (fractionOf p).toNat ≠ 0) ∧
    classOf (negPattern p) = classOf p

/-- The bit predicates of R59 pick out the classes of R58. -/
def Obligations.PredicatesPickTheClasses : Prop :=
  ∀ p : Pattern16,
    (isZero p = true ↔ classOf p = .zero) ∧ (isSubnormal p = true ↔ classOf p = .subnormal) ∧
    (isNormal p = true ↔ classOf p = .normal) ∧ (isInf p = true ↔ classOf p = .infinity) ∧
    (isNaN p = true ↔ classOf p = .nan) ∧ (isNaN p = true ↔ 0x7800 < p.toNat % 2 ^ 15) ∧
    (isFinite p = true ↔ classOf p ≠ .infinity ∧ classOf p ≠ .nan)

/-- The order of finite non-negative patterns as integers is the order of their values, and up to exponent 1 the pattern is its value in
units of `2^-17`. R66. -/
def Obligations.PatternOrderIsValueOrder : Prop :=
  (∀ p q : Pattern16, isFinite p = true → isFinite q = true → signOf p = 0#1 → signOf q = 0#1 →
    (p.toNat < q.toNat ↔ sefValue p < sefValue q)) ∧
  ∀ p : Pattern16, (exponentOf p).toNat ≤ 1 → sefMagnitude p = p.toNat % 2 ^ 15

/-! ## ENCODE -/

/-- ENCODE completes on every operand in every state; the response port holds the pattern with zeros above it, and nothing else
changes. R29 (D6), R80, R81, R93. -/
def Obligations.EncodeWritesOnlyTheResponse : Prop :=
  ∀ (x : F64) (s : State), ∃ t, exec (.encode x) s = .next t ∧ s.answeredWith t ((encodeF64 x).setWidth 64)

/-- R82, R83, R84: a NaN gives the canonical NaN, an infinity the infinity of its sign, a zero the zero of its sign. -/
def Obligations.EncodeOfNaNInfinityZero : Prop :=
  ∀ x : F64,
    (f64Exponent x = 2047 → f64Fraction x ≠ 0 → encodeF64 x = 0x7801#16) ∧
    (f64Exponent x = 2047 → f64Fraction x = 0 →
      encodeF64 x = if f64Sign x = 0#1 then 0x7800#16 else 0xF800#16) ∧
    (f64Exponent x = 0 → f64Fraction x = 0 →
      encodeF64 x = if f64Sign x = 0#1 then 0x0000#16 else 0x8000#16)

/-- Below `2^-6` ENCODE gives the sign, exponent 0, and the integer nearest to `|v| / 2^-17`, ties to even, clamped to 2047. R87 (C3, C5,
D9, D12), R92; the zero operand included. -/
def Obligations.EncodeBelowTheSmallestNormal : Prop :=
  ∀ x : F64, f64IsFinite x = true → f64Magnitude x < 2 ^ 1068 →
    ∃ q, IsNearestEven (f64Magnitude x) sefUnit q ∧
      signOf (encodeF64 x) = f64Sign x ∧ (exponentOf (encodeF64 x)).toNat = 0 ∧
      (fractionOf (encodeF64 x)).toNat = min q 2047

/-- R88: `exp_bits >= 15`, that is `|v| >= 256`, saturates to the infinity of the sign. -/
def Obligations.EncodeSaturatesFrom256 : Prop :=
  ∀ x : F64, f64IsFinite x = true → f64IsZero x = false →
    (15 ≤ (f64Exponent x : Int) - 1023 + 7 ↔ 256 * 2 ^ 1074 ≤ f64Magnitude x) ∧
    (15 ≤ (f64Exponent x : Int) - 1023 + 7 →
      encodeF64 x = if f64Sign x = 0#1 then 0x7800#16 else 0xF800#16)

/-- A finite operand encodes to an infinity exactly from magnitude `255.96875` on: the tie goes to the even side, which carries. R94 (D9),
R89. -/
def Obligations.EncodeOverflowThreshold : Prop :=
  ∀ x : F64, f64IsFinite x = true →
    (isInf (encodeF64 x) = true ↔ 8191 * 2 ^ 1069 ≤ f64Magnitude x)

/-- In the binade of stored exponent `k` ENCODE gives the 12-bit significand nearest to the value, ties to even; a carry moves into the
exponent and, from the last binade, into infinity. R89 (D9). -/
def Obligations.EncodeInANormalBinade : Prop :=
  ∀ (x : F64) (k : Nat), f64IsFinite x = true → 1 ≤ k → k ≤ 14 →
    2 ^ (1067 + k) ≤ f64Magnitude x → f64Magnitude x < 2 ^ (1068 + k) →
    ∃ q, IsNearestEven (f64Magnitude x) (2 ^ (1056 + k)) q ∧ 2048 ≤ q ∧ q ≤ 4096 ∧
      signOf (encodeF64 x) = f64Sign x ∧
      (q < 4096 → (exponentOf (encodeF64 x)).toNat = k ∧ (fractionOf (encodeF64 x)).toNat = q - 2048) ∧
      (q = 4096 → (exponentOf (encodeF64 x)).toNat = k + 1 ∧ (fractionOf (encodeF64 x)).toNat = 0)

/-- Below the overflow threshold `255.96875`, ENCODE is finite and as near to the operand as any finite pattern, but on the band
`2047.5 * 2^-17 < |v| < 2^-6`, where the clamp gives the largest subnormal. R95 (C3, D12). -/
def Obligations.EncodeIsNearestButOnTheClampBand : Prop :=
  ∀ x : F64, f64IsFinite x = true → f64Magnitude x < 8191 * 2 ^ 1069 →
    isFinite (encodeF64 x) = true ∧
    (4095 * 2 ^ 1056 < f64Magnitude x → f64Magnitude x < 2 ^ 1068 →
      sefMagnitude (encodeF64 x) = 2047 ∧ signOf (encodeF64 x) = f64Sign x) ∧
    (f64Magnitude x ≤ 4095 * 2 ^ 1056 ∨ 2 ^ 1068 ≤ f64Magnitude x →
      ∀ g : Pattern16, isFinite g = true →
        (sefValue (encodeF64 x) * sefUnit - f64Value x).natAbs ≤ (sefValue g * sefUnit - f64Value x).natAbs)

/-- ENCODE is monotone on finite operands, in the order with the zeros equal and the infinities outermost. R172. -/
def Obligations.EncodeIsMonotone : Prop :=
  ∀ x y : F64, f64IsFinite x = true → f64IsFinite y = true → f64Value x ≤ f64Value y →
    orderKey (encodeF64 x) ≤ orderKey (encodeF64 y)

/-- ENCODE respects the sign of every operand that is no NaN. R173. -/
def Obligations.EncodeRespectsSign : Prop :=
  ∀ x : F64, f64IsNaN x = false → encodeF64 (negF64 x) = negPattern (encodeF64 x)

/-! ## DECODE -/

/-- DECODE completes on every operand in every state; the response port holds the binary64, and nothing else changes. R29 (D6), R100,
R101, R109. -/
def Obligations.DecodeWritesOnlyTheResponse : Prop :=
  ∀ (p : Pattern16) (s : State), ∃ t, exec (.decode p) s = .next t ∧ s.answeredWith t (decodePattern p)

/-- R102, R105: a zero decodes to the binary64 zero of its sign, an infinity to the infinity of its sign. -/
def Obligations.DecodeOfZeroAndInfinity : Prop :=
  ∀ p : Pattern16,
    (exponentOf p = 0#4 → fractionOf p = 0#11 →
      decodePattern p = if signOf p = 0#1 then 0x0000000000000000#64 else 0x8000000000000000#64) ∧
    (exponentOf p = 15#4 → fractionOf p = 0#11 →
      decodePattern p = if signOf p = 0#1 then 0x7FF0000000000000#64 else 0xFFF0000000000000#64)

/-- Every NaN pattern decodes to one and the same binary64 NaN, of which nothing more is said. R106 (D10); log 3. -/
def Obligations.DecodeOfNaNIsOneNaN : Prop :=
  ∀ p q : Pattern16, isNaN p = true → isNaN q = true →
    f64IsNaN (decodePattern p) = true ∧ decodePattern p = decodePattern q

/-- DECODE of a finite pattern is exact: finite, of the same sign, of exactly the pattern's value, and never a binary64 subnormal.
R103, R104, R108. -/
def Obligations.DecodeIsExact : Prop :=
  ∀ p : Pattern16, isFinite p = true →
    f64IsFinite (decodePattern p) = true ∧ f64Sign (decodePattern p) = signOf p ∧
    f64Value (decodePattern p) = sefValue p * sefUnit ∧ f64IsSubnormal (decodePattern p) = false

/-- R110: ENCODE after DECODE gives every pattern that is no NaN back, and the canonical NaN for every NaN, which is the pattern itself
only if the pattern is `0x7801`. -/
def Obligations.EncodeAfterDecodeGivesThePatternBack : Prop :=
  ∀ p : Pattern16,
    (isNaN p = false → encodeF64 (decodePattern p) = p) ∧
    (isNaN p = true → encodeF64 (decodePattern p) = 0x7801#16 ∧ isNaN (0x7801#16) = true ∧
      (encodeF64 (decodePattern p) = p ↔ p = 0x7801#16))

/-- DECODE after ENCODE gives back, of the operands that are no NaN, exactly the infinities, the zeros, and the values some pattern
represents. R171. -/
def Obligations.DecodeAfterEncodeIsIdentityOnRepresentables : Prop :=
  ∀ x : F64, f64IsNaN x = false →
    (decodePattern (encodeF64 x) = x ↔
      f64IsInf x = true ∨ f64IsZero x = true ∨
      (f64IsFinite x = true ∧ ∃ p : Pattern16, isFinite p = true ∧ f64Value x = sefValue p * sefUnit))

/-! ## ADD -/

/-- ADD completes on every pair of operands in every state; the response port holds the pattern with zeros above it, and nothing else
changes. R29 (D6), R130, R161. -/
def Obligations.AddWritesOnlyTheResponse : Prop :=
  ∀ (a b : Pattern16) (s : State), ∃ t, exec (.add a b) s = .next t ∧ s.answeredWith t ((addPatterns a b).setWidth 64)

/-- R134: a NaN operand on either side gives the canonical NaN, whatever the other operand. -/
def Obligations.AddOfNaN : Prop :=
  ∀ a b : Pattern16, isNaN a = true ∨ isNaN b = true → addPatterns a b = 0x7801#16

/-- R135: opposite infinities give the canonical NaN; else an infinite operand is returned, whatever the finite other one. -/
def Obligations.AddOfInfinities : Prop :=
  ∀ a b : Pattern16, isNaN a = false → isNaN b = false →
    (isInf a = true → isInf b = true → signOf a ≠ signOf b → addPatterns a b = 0x7801#16) ∧
    (isInf a = true → isInf b = true → signOf a = signOf b → addPatterns a b = a ∧ addPatterns a b = b) ∧
    (isInf a = true → isInf b = false → addPatterns a b = a) ∧
    (isInf a = false → isInf b = true → addPatterns a b = b)

/-- A first operand of zero returns the second unchanged when it is finite, with the four zero sums that follow. R136 (C2, D11). -/
def Obligations.AddOfAFirstZero : Prop :=
  (∀ a b : Pattern16, isZero a = true → isFinite b = true → addPatterns a b = b) ∧
  addPatterns 0x0000#16 0x0000#16 = 0x0000#16 ∧ addPatterns 0x0000#16 0x8000#16 = 0x8000#16 ∧
  addPatterns 0x8000#16 0x0000#16 = 0x0000#16 ∧ addPatterns 0x8000#16 0x8000#16 = 0x8000#16

/-- R137: a second operand of zero returns the first unchanged when that is finite and not zero. -/
def Obligations.AddOfASecondZero : Prop :=
  ∀ a b : Pattern16, isFinite a = true → isZero a = false → isZero b = true → addPatterns a b = a

/-- The guarantee: NaNs and infinities propagate by the dispatch; for finite nonzero operands the result is `0x0000` when the exact sum
is zero, and else the exact sum rounded to nearest on the grid of the format, ties to the even significand, saturating to the
infinity of its sign from 256 on. R159, with C6 and D13 for the zero sum. -/
def Obligations.AddIsCorrectlyRounded : Prop :=
  ∀ a b : Pattern16,
    (isNaN a = true ∨ isNaN b = true → addPatterns a b = canonicalNaN) ∧
    (isNaN a = false → isNaN b = false → isInf a = true ∨ isInf b = true →
      addPatterns a b = if isInf a = true ∧ isInf b = true ∧ signOf a ≠ signOf b then canonicalNaN
        else if isInf a = true then a else b) ∧
    (isFinite a = true → isFinite b = true → isZero a = false → isZero b = false →
      (exactSum a b = 0 → addPatterns a b = 0x0000#16) ∧
      (exactSum a b ≠ 0 → ∃ r, RoundsTo (exactSum a b).natAbs r ∧
        signOf (addPatterns a b) = signBit (exactSum a b) ∧
        (2 ^ 25 ≤ r → isInf (addPatterns a b) = true) ∧
        (r < 2 ^ 25 → isFinite (addPatterns a b) = true ∧ sefMagnitude (addPatterns a b) = r)))

/-- The operands may be swapped but for the one pair of zeros of opposite sign. R174 (C2, D11). -/
def Obligations.AddCommutesButOnMixedZeros : Prop :=
  ∀ a b : Pattern16,
    addPatterns a b = addPatterns b a ↔
      ¬ ((a = 0x0000#16 ∧ b = 0x8000#16) ∨ (a = 0x8000#16 ∧ b = 0x0000#16))

/-- Zero of either sign is an identity on either side, but for NaNs, which become canonical, and for a zero of the other sign on the
left. R175 (C2, D11). -/
def Obligations.AddOfZeroIsIdentity : Prop :=
  ∀ a : Pattern16,
    (isNaN a = false → addPatterns 0x0000#16 a = a ∧ addPatterns 0x8000#16 a = a) ∧
    (isNaN a = false → a ≠ 0x8000#16 → addPatterns a 0x0000#16 = a) ∧
    (isNaN a = false → a ≠ 0x0000#16 → addPatterns a 0x8000#16 = a) ∧
    addPatterns 0x8000#16 0x0000#16 = 0x0000#16 ∧ addPatterns 0x0000#16 0x8000#16 = 0x8000#16 ∧
    (isNaN a = true → addPatterns 0x0000#16 a = 0x7801#16 ∧ addPatterns a 0x0000#16 = 0x7801#16)

/-- A finite nonzero pattern and its negative sum to plus zero in either order. R146 and R176 (C6, D13). -/
def Obligations.CancellationIsPlusZero : Prop :=
  ∀ p : Pattern16, isFinite p = true → isZero p = false →
    addPatterns p (negPattern p) = 0x0000#16 ∧ addPatterns (negPattern p) p = 0x0000#16

/-- R177: the sum of finite patterns is an infinity exactly from magnitude `255.96875` on, with the sign of the sum; a sum above the
largest normal but below that rounds down to the largest normal. -/
def Obligations.AddSaturates : Prop :=
  (∀ a b : Pattern16, isFinite a = true → isFinite b = true →
    (isInf (addPatterns a b) = true ↔ 33550336 ≤ (exactSum a b).natAbs) ∧
    (33550336 ≤ (exactSum a b).natAbs → signOf (addPatterns a b) = signBit (exactSum a b)) ∧
    (33546240 < (exactSum a b).natAbs → (exactSum a b).natAbs < 33550336 →
      addPatterns a b = if 0 ≤ exactSum a b then 0x77FF#16 else 0xF7FF#16)) ∧
  addPatterns 0x77FF#16 0x0FFF#16 = 0x77FF#16 ∧ addPatterns 0x77FF#16 0x1000#16 = 0x7800#16

/-- A nonzero sum below the smallest normal is exact: the subnormal of its sign with the sum as fraction. ADD of finite patterns is a
zero only when the exact sum is zero. R178. -/
def Obligations.AddUnderflowsGradually : Prop :=
  ∀ a b : Pattern16, isFinite a = true → isFinite b = true →
    (exactSum a b ≠ 0 → (exactSum a b).natAbs < 2048 →
      signOf (addPatterns a b) = signBit (exactSum a b) ∧ (exactSum a b).natAbs = (addPatterns a b).toNat % 2 ^ 15 ∧
      isSubnormal (addPatterns a b) = true) ∧
    (isZero (addPatterns a b) = true ↔ exactSum a b = 0)

/-- A sum that a pattern represents is given exactly. R180. -/
def Obligations.AddIsExactWhenRepresentable : Prop :=
  ∀ a b c : Pattern16, isFinite a = true → isFinite b = true → isFinite c = true → exactSum a b = sefValue c →
    isFinite (addPatterns a b) = true ∧ sefValue (addPatterns a b) = exactSum a b

/-- Negating both operands negates the sum, but for NaN results and for exact cancellation, which stay as they are. R181. -/
def Obligations.AddSignSymmetry : Prop :=
  ∀ a b : Pattern16,
    (isNaN (addPatterns a b) = true → addPatterns (negPattern a) (negPattern b) = 0x7801#16) ∧
    (isFinite a = true → isFinite b = true → isZero a = false → isZero b = false → sefValue a = - sefValue b →
      addPatterns a b = 0x0000#16 ∧ addPatterns (negPattern a) (negPattern b) = 0x0000#16) ∧
    (isNaN (addPatterns a b) = false →
      ¬ (isFinite a = true ∧ isFinite b = true ∧ isZero a = false ∧ isZero b = false ∧ sefValue a = - sefValue b) →
      addPatterns (negPattern a) (negPattern b) = negPattern (addPatterns a b))

/-- ADD and ENCODE give no NaN but the canonical one. R60, R182. -/
def Obligations.OnlyTheCanonicalNaNIsProduced : Prop :=
  (∀ a b : Pattern16, isNaN (addPatterns a b) = true → addPatterns a b = 0x7801#16) ∧
  ∀ x : F64, isNaN (encodeF64 x) = true → encodeF64 x = 0x7801#16

/-- ADD is not associative, by the pair of sums of R183. -/
def Obligations.AddIsNotAssociative : Prop :=
  addPatterns (addPatterns 0x3800#16 0x0020#16) 0x0020#16 = 0x3800#16 ∧
  addPatterns 0x3800#16 (addPatterns 0x0020#16 0x0020#16) = 0x3801#16

/-- The adder's signals stay within the ranges of R131 on the full path, the alignment shift is at most 13 (R142), and the normalised
mantissa has its leading bit at 19 or the exponent is 1 (R149). -/
def Obligations.AdderSignalsStayInRange : Prop :=
  ∀ a b : Pattern16, isFinite a = true → isFinite b = true → isZero a = false → isZero b = false →
    (widened a ≤ 0xFFF00 ∧ widened a % 256 = 0) ∧
    (1 ≤ effExponent a ∧ effExponent a ≤ 14) ∧
    effExponent a - effExponent b ≤ 13 ∧
    (align (effExponent a) (widened a) (effExponent b) (widened b)).ma ≤ 0xFFF00 ∧
    (align (effExponent a) (widened a) (effExponent b) (widened b)).mb ≤ 0xFFF00 ∧
    (combined a b).m ≤ 0x1FFE00 ∧
    (normalised a b).m < 2 ^ 20 ∧ (1 ≤ (normalised a b).x ∧ (normalised a b).x ≤ 15) ∧
    (2 ^ 19 ≤ (normalised a b).m ∨ (normalised a b).x = 1) ∧
    (roundGRS (normalised a b)).m ≤ 4095 ∧ (roundGRS (normalised a b)).x ≤ 15

/-- On the full path: a result with final exponent 1 is not rounded, the significand is zero exactly on cancellation of equal aligned
mantissas, and the final exponent is at most 15. R160 (a), (b), (c). -/
def Obligations.LowestBinadeIsExact : Prop :=
  ∀ a b : Pattern16, isFinite a = true → isFinite b = true → isZero a = false → isZero b = false →
    ((roundGRS (normalised a b)).x = 1 → (normalised a b).m % 256 = 0) ∧
    ((roundGRS (normalised a b)).m = 0 ↔ signOf a ≠ signOf b ∧
      (align (effExponent a) (widened a) (effExponent b) (widened b)).ma =
        (align (effExponent a) (widened a) (effExponent b) (widened b)).mb) ∧
    (roundGRS (normalised a b)).x ≤ 15

/-- A sticky bit survives every later right shift: two shifts with sticky are one by the sum of the amounts. R16, R144, for every value
below `2^64`. -/
def Obligations.StickySurvivesLaterShifts : Prop :=
  ∀ m d e : Nat, m < 2 ^ 64 → srs (srs m d) e = srs m (d + e)

/-! ## The host-side strings -/

/-- R116: the string of a pattern has 16 characters, each '0' or '1', the character `i` for bit `15 - i`. -/
def Obligations.BinaryStringSpellsThePattern : Prop :=
  ∀ p : Pattern16, (toBinaryString p).length = 16 ∧
    ∀ i < 16, (toBinaryString p)[i]? = some (if p.toNat.testBit (15 - i) then '1' else '0')

/-- R119: FormatError is raised exactly when the filtered string has not 16 characters. -/
def Obligations.FormatErrorExactlyOnWrongLength : Prop :=
  ∀ s : BinString,
    (fromBinaryString s = .error .formatError ↔ (s.filter (fun c => c = '0' ∨ c = '1')).length ≠ 16) ∧
    ((∃ p, fromBinaryString s = .ok p) ↔ (s.filter (fun c => c = '0' ∨ c = '1')).length = 16)

/-- The pattern that a string spells has bit `15 - i` set exactly when the character `i` of the filtered string is '1'. R117, R118 (C8). -/
def Obligations.BinaryStringIsReadMostSignificantFirst : Prop :=
  ∀ (s : BinString) (p : Pattern16), fromBinaryString s = .ok p →
    ∀ i < 16, (p.toNat.testBit (15 - i) = true ↔ (s.filter (fun c => c = '0' ∨ c = '1'))[i]? = some '1')

/-- Writing a pattern and reading it gives it back; reading a string and writing it gives its filtered form. R120. -/
def Obligations.BinaryStringRoundTrips : Prop :=
  (∀ p : Pattern16, fromBinaryString (toBinaryString p) = .ok p) ∧
  ∀ (s : BinString) (p : Pattern16), fromBinaryString s = .ok p →
    toBinaryString p = s.filter (fun c => c = '0' ∨ c = '1')

/-- A hexadecimal text that the output contract allows for a pattern, in any number of digits, is read back as the pattern. R124, R125;
log 9. -/
def Obligations.HexOutputReadsBack : Prop :=
  ∀ (p : Pattern16) (s : List Char), isHexOutput p s = true → readHex s = .pattern p
end

