-- ==== Sys2Proof/Laws/Bits.lean ====
section
/-! SUPPORT. Concatenation and slices of bit vectors as arithmetic on numbers (00_scope.md R14). -/

namespace Sys2Proof.Laws

/-- `{x, y}` with `y` of `n` bits is `x * 2^n + y` (R14). -/
theorem toNat_append_eq {m n : Nat} (x : BitVec m) (y : BitVec n) : (x ++ y).toNat = x.toNat * 2 ^ n + y.toNat := by
  rw [BitVec.toNat_append, ← Nat.shiftLeft_add_eq_or_of_lt y.isLt, Nat.shiftLeft_eq]

/-- A slice as a number: `(v >> lo) mod 2^len` (R14). -/
theorem toNat_slice {n : Nat} (v : BitVec n) (lo len : Nat) : (v.extractLsb' lo len).toNat = v.toNat / 2 ^ lo % 2 ^ len := by
  simp [Nat.shiftRight_eq_div_pow]

/-- The upper part of a concatenation. -/
theorem slice_append_high {m n : Nat} (x : BitVec m) (y : BitVec n) : (x ++ y).extractLsb' n m = x := by
  apply BitVec.eq_of_toNat_eq
  rw [toNat_slice, toNat_append_eq, Nat.add_comm, Nat.add_mul_div_right _ _ (Nat.two_pow_pos n),
    Nat.div_eq_of_lt y.isLt, Nat.zero_add, Nat.mod_eq_of_lt x.isLt]

/-- The lower part of a concatenation. -/
theorem slice_append_low {m n : Nat} (x : BitVec m) (y : BitVec n) : (x ++ y).extractLsb' 0 n = y := by
  apply BitVec.eq_of_toNat_eq
  rw [toNat_slice, toNat_append_eq, Nat.pow_zero, Nat.div_one, Nat.add_comm, Nat.add_mul_mod_self_right,
    Nat.mod_eq_of_lt y.isLt]

/-- The middle part of a concatenation of three. -/
theorem slice_append_mid {l m n : Nat} (x : BitVec l) (y : BitVec m) (z : BitVec n) :
    (x ++ y ++ z).extractLsb' n m = y := by
  apply BitVec.eq_of_toNat_eq
  rw [toNat_slice, toNat_append_eq, toNat_append_eq, Nat.add_comm, Nat.add_mul_div_right _ _ (Nat.two_pow_pos n),
    Nat.div_eq_of_lt z.isLt, Nat.zero_add, Nat.add_comm, Nat.add_mul_mod_self_right, Nat.mod_eq_of_lt y.isLt]

/-- The top part of a concatenation of three. -/
theorem slice_append_top {l m n : Nat} (x : BitVec l) (y : BitVec m) (z : BitVec n) :
    (x ++ y ++ z).extractLsb' (m + n) l = x := by
  apply BitVec.eq_of_toNat_eq
  have hz := z.isLt
  rw [toNat_slice, toNat_append_eq, toNat_append_eq, Nat.add_comm m n, Nat.pow_add, ← Nat.div_div_eq_div_mul,
    Nat.add_comm, Nat.add_mul_div_right _ _ (Nat.two_pow_pos n), Nat.div_eq_of_lt hz, Nat.zero_add, Nat.add_comm,
    Nat.add_mul_div_right _ _ (Nat.two_pow_pos m), Nat.div_eq_of_lt y.isLt, Nat.zero_add, Nat.mod_eq_of_lt x.isLt]

end Sys2Proof.Laws
end

