-- ==== Sys2Proof/Laws/Operands.lean ====
section
/-! SUPPORT. The fields of a packed pattern and of a packed binary64, and the ranges of what the adder reads from an operand
(30_encoding.md R55, R56; 43_adder.md R131). -/

namespace Sys2Proof.Machine

/-! Fields of a packed pattern. -/

@[simp] theorem signOf_pack (v : Sef) : signOf (pack v) = v.sign := Laws.slice_append_top _ _ _

@[simp] theorem exponentOf_pack (v : Sef) : exponentOf (pack v) = v.exponent := Laws.slice_append_mid _ _ _

@[simp] theorem fractionOf_pack (v : Sef) : fractionOf (pack v) = v.fraction := Laws.slice_append_low _ _

@[simp] theorem signOf_packNat (s : BitVec 1) (e f : Nat) : signOf (packNat s e f) = s := by
  simp [packNat]

@[simp] theorem exponentOf_packNat (s : BitVec 1) (e f : Nat) : exponentOf (packNat s e f) = BitVec.ofNat 4 e := by
  simp [packNat]

@[simp] theorem fractionOf_packNat (s : BitVec 1) (e f : Nat) : fractionOf (packNat s e f) = BitVec.ofNat 11 f := by
  simp [packNat]

/-! Fields as numbers. -/

theorem signOf_toNat (p : Pattern16) : (signOf p).toNat = p.toNat / 2 ^ 15 := by
  have := p.isLt
  simp [signOf, Nat.shiftRight_eq_div_pow]
  omega

theorem exponentOf_toNat (p : Pattern16) : (exponentOf p).toNat = p.toNat / 2 ^ 11 % 2 ^ 4 := by
  simp [exponentOf, Nat.shiftRight_eq_div_pow]

theorem fractionOf_toNat (p : Pattern16) : (fractionOf p).toNat = p.toNat % 2 ^ 11 := by
  simp [fractionOf]

/-- A pattern is determined by its three fields. -/
theorem pattern_ext {p q : Pattern16} (hs : signOf p = signOf q) (he : exponentOf p = exponentOf q)
    (hf : fractionOf p = fractionOf q) : p = q := by
  have h1 := congrArg BitVec.toNat hs
  have h2 := congrArg BitVec.toNat he
  have h3 := congrArg BitVec.toNat hf
  rw [signOf_toNat, signOf_toNat] at h1
  rw [exponentOf_toNat, exponentOf_toNat] at h2
  rw [fractionOf_toNat, fractionOf_toNat] at h3
  apply BitVec.eq_of_toNat_eq
  omega

/-- A one-bit value is 0 or 1. -/
theorem bit_cases (s : BitVec 1) : s = 0#1 ∨ s = 1#1 := by
  have : ∀ s : BitVec 1, s = 0#1 ∨ s = 1#1 := by decide
  exact this s

/-! Ranges (R131). -/

theorem sig12_lt (p : Pattern16) : sig12 p < 2 ^ 12 := by
  have := (fractionOf p).isLt
  unfold sig12 Config.fracBits
  split <;> omega

theorem sig12_ge_of_normal (p : Pattern16) (h : exponentOf p ≠ 0#4) : 2 ^ 11 ≤ sig12 p := by
  simp [sig12, h, Config.fracBits]

theorem effExponent_pos (p : Pattern16) : 1 ≤ effExponent p := by
  unfold effExponent Config.expMinNormal
  split
  · next h =>
    have : (exponentOf p).toNat ≠ 0 := fun h0 => h (BitVec.eq_of_toNat_eq (by simpa using h0))
    omega
  · exact Nat.le_refl 1

theorem effExponent_le_of_finite (p : Pattern16) (h : isFinite p = true) : effExponent p ≤ 14 := by
  have hlt := (exponentOf p).isLt
  have : (exponentOf p).toNat ≠ 15 := fun h0 => by
    have : exponentOf p = 15#4 := BitVec.eq_of_toNat_eq (by simpa using h0)
    simp [isFinite, this] at h
  unfold effExponent Config.expMinNormal
  split <;> omega

theorem widened_eq (p : Pattern16) : widened p = sig12 p * 2 ^ 8 := by
  simp [widened, Config.guardBits, Nat.shiftLeft_eq]

/-- An operand whose effective exponent is above 1 is a normal, so its leading bit is bit 19. -/
theorem widened_ge_of_effExponent (p : Pattern16) (h : 1 < effExponent p) : 2 ^ 19 ≤ widened p := by
  have hn : exponentOf p ≠ 0#4 := fun h0 => by simp [effExponent, Config.expMinNormal, h0] at h
  have := sig12_ge_of_normal p hn
  rw [widened_eq]; omega

theorem widened_lt (p : Pattern16) : widened p < 2 ^ 20 := by
  have := sig12_lt p
  rw [widened_eq]; omega

/-! Fields of a packed binary64. -/

@[simp] theorem f64Sign_packF64 (s : BitVec 1) (e f : Nat) : f64Sign (packF64 s e f) = s := Laws.slice_append_top _ _ _

@[simp] theorem f64Exponent_packF64 (s : BitVec 1) (e f : Nat) : f64Exponent (packF64 s e f) = e % 2 ^ 11 := by
  have : (packF64 s e f).extractLsb' 52 11 = BitVec.ofNat 11 e := Laws.slice_append_mid _ _ _
  simp [f64Exponent, this]

@[simp] theorem f64Fraction_packF64 (s : BitVec 1) (e f : Nat) : f64Fraction (packF64 s e f) = f % 2 ^ 52 := by
  have : (packF64 s e f).extractLsb' 0 52 = BitVec.ofNat 52 f := Laws.slice_append_low _ _
  simp [f64Fraction, this]

theorem f64Exponent_lt (x : F64) : f64Exponent x < 2 ^ 11 := (x.extractLsb' 52 11).isLt

theorem f64Fraction_lt (x : F64) : f64Fraction x < 2 ^ 52 := (x.extractLsb' 0 52).isLt

/-- `DEC_NAN` is a NaN whatever its sign and payload (R106). -/
theorem f64IsNaN_decNan : f64IsNaN Config.decNan = true := by
  have hp := Config.decNanFractionPred.isLt
  have he : Config.decNan = packF64 Config.decNanSign 0x7FF (Config.decNanFractionPred.val + 1) := rfl
  rw [he]
  simp [f64IsNaN]
  omega

end Sys2Proof.Machine
end

