-- ==== Sys2Proof/Laws/Ops.lean ====
section
/-! SUPPORT. What the shift with sticky, the rounding and the result placement do, in arithmetic (00_scope.md R16, R17;
10_state.md R29). -/

namespace Sys2Proof.Machine

@[simp] theorem srs_zero_shift (m : Nat) : srs m 0 = m := rfl

@[simp] theorem srs_zero (d : Nat) : srs 0 d = 0 := by
  unfold srs
  split
  · rfl
  · split <;> simp

theorem or_one_eq (n : Nat) : n ||| 1 = 2 * (n / 2) + 1 := by
  apply Nat.eq_of_testBit_eq
  intro i
  cases i with
  | zero => simp
  | succ i =>
    rw [Nat.testBit_or, Nat.testBit_succ, Nat.testBit_succ, Nat.testBit_succ]
    have : (2 * (n / 2) + 1) / 2 = n / 2 := by omega
    simp [this]

/-- A shift that loses nothing is a division (R16). -/
theorem srs_exact {m d : Nat} (hd : d < 64) (h : m % 2 ^ d = 0) : srs m d = m / 2 ^ d := by
  by_cases h0 : d = 0
  · subst h0; simp
  · rw [srs, Config.bigShift, if_neg h0, if_pos hd, if_neg (by simp [h])]
    simp [Nat.shiftRight_eq_div_pow]

/-- A shift that loses a nonzero bit sets the bit 0 of the quotient (R16). -/
theorem srs_sticky {m d : Nat} (hd : d < 64) (h : m % 2 ^ d ≠ 0) : srs m d = 2 * (m / 2 ^ d / 2) + 1 := by
  have h0 : d ≠ 0 := by
    intro h0
    subst h0
    exact h (Nat.mod_one m)
  rw [srs, Config.bigShift, if_neg h0, if_pos hd, if_pos h, or_one_eq, Nat.shiftRight_eq_div_pow]

/-- The shifted value is at least the quotient and at most one more. -/
theorem srs_bounds {m d : Nat} (hd : d < 64) : m / 2 ^ d ≤ srs m d ∧ srs m d ≤ m / 2 ^ d + 1 := by
  by_cases h : m % 2 ^ d = 0
  · rw [srs_exact hd h]; omega
  · rw [srs_sticky hd h]; omega

/-- The shifted value is never above the value. -/
theorem srs_le {m d : Nat} (hd : d < 64) : srs m d ≤ m := by
  have hle := Nat.div_le_self m (2 ^ d)
  have hdm := Nat.div_add_mod m (2 ^ d)
  by_cases h : m % 2 ^ d = 0
  · rw [srs_exact hd h]; exact hle
  · rw [srs_sticky hd h]
    rcases Nat.eq_zero_or_pos (m / 2 ^ d) with h0 | hpos
    · rw [h0] at hdm ⊢; omega
    · have hpow : 1 ≤ 2 ^ d := Nat.one_le_two_pow
      have : m / 2 ^ d ≤ 2 ^ d * (m / 2 ^ d) := Nat.le_mul_of_pos_left _ (by omega)
      omega

/-- A nonzero value stays nonzero (R143). -/
theorem srs_pos {m d : Nat} (h : m ≠ 0) : srs m d ≠ 0 := by
  by_cases hd : d < 64
  · by_cases hm : m % 2 ^ d = 0
    · have hdm := Nat.div_add_mod m (2 ^ d)
      rw [srs_exact hd hm]
      intro h0
      rw [h0, hm] at hdm
      omega
    · rw [srs_sticky hd hm]; omega
  · unfold srs Config.bigShift
    rw [if_neg (by omega), if_neg hd, if_pos h]
    omega

/-- `rne(n / 2^d)` is the integer nearest to `n / 2^d`, ties to even (R17). -/
theorem rne_isNearestEven (n d : Nat) (hd : 1 ≤ d) : IsNearestEven n (2 ^ d) (rne n d) := by
  obtain ⟨k, rfl⟩ : ∃ k, d = k + 1 := ⟨d - 1, by omega⟩
  have hdm := Nat.div_add_mod n (2 ^ (k + 1))
  have hlt := Nat.mod_lt n (Nat.two_pow_pos (k + 1))
  have hpow : 2 ^ (k + 1) = 2 * 2 ^ k := by rw [Nat.pow_succ]; omega
  unfold IsNearestEven rne
  rw [Nat.shiftRight_eq_div_pow, Nat.add_sub_cancel]
  generalize n / 2 ^ (k + 1) = q at *
  generalize n % 2 ^ (k + 1) = r at *
  rw [hpow] at *
  generalize 2 ^ k = h at *
  have e1 : 2 * h * q = 2 * (h * q) := by ring
  have e2 : (2 * q + 1) * (2 * h) = 4 * (h * q) + 2 * h := by ring
  have e3 : 2 * q * (2 * h) = 4 * (h * q) := by ring
  have e4 : (2 * (q + 1) + 1) * (2 * h) = 4 * (h * q) + 6 * h := by ring
  have e5 : 2 * (q + 1) * (2 * h) = 4 * (h * q) + 4 * h := by ring
  dsimp only
  rw [e1] at hdm
  generalize h * q = hq at *
  split
  · next hc =>
    rw [e4, e5]
    refine ⟨by omega, by omega, fun ht => ?_⟩
    omega
  · next hc =>
    rw [e2, e3]
    refine ⟨by omega, by omega, fun ht => ?_⟩
    omega

/-- Nothing but the nearest integer, ties to even, is nearest and even on ties. -/
theorem isNearestEven_unique {n d q q' : Nat} (hd : 0 < d) (h : IsNearestEven n d q) (h' : IsNearestEven n d q') : q = q' := by
  obtain ⟨a, b, c⟩ := h
  obtain ⟨a', b', c'⟩ := h'
  by_contra hne
  rcases Nat.lt_or_gt_of_ne hne with hlt | hlt
  · obtain ⟨k, rfl⟩ : ∃ k, q' = q + 1 + k := ⟨q' - (q + 1), by omega⟩
    have e : 2 * (q + 1 + k) * d = (2 * q + 1) * d + d + 2 * (k * d) := by ring
    rw [e] at b' c'
    have hk : k * d = 0 := by omega
    have hk0 : k = 0 := (Nat.mul_eq_zero.1 hk).resolve_right (by omega)
    subst hk0
    have := c (.inl (by omega))
    have := c' (.inr (by omega))
    omega
  · obtain ⟨k, rfl⟩ : ∃ k, q = q' + 1 + k := ⟨q - (q' + 1), by omega⟩
    have e : 2 * (q' + 1 + k) * d = (2 * q' + 1) * d + d + 2 * (k * d) := by ring
    rw [e] at b c
    have hk : k * d = 0 := by omega
    have hk0 : k = 0 := (Nat.mul_eq_zero.1 hk).resolve_right (by omega)
    subst hk0
    have := c' (.inl (by omega))
    have := c (.inr (by omega))
    omega

/-- A pattern placed on the response is read back from its low 16 bits (R29). -/
@[simp] theorem zext64_low (p : Pattern16) : (zext64 p).extractLsb' 0 16 = p := by
  apply BitVec.eq_of_toNat_eq
  have := p.isLt
  rw [Laws.toNat_slice]
  simp [zext64]
  omega

/-- The upper 48 bits of a placed pattern are zero (R29). -/
@[simp] theorem zext64_high (p : Pattern16) : (zext64 p).extractLsb' 16 48 = 0#48 := by
  apply BitVec.eq_of_toNat_eq
  have := p.isLt
  rw [Laws.toNat_slice]
  simp [zext64]
  omega

end Sys2Proof.Machine
end

