-- ==== Sys2Proof/Laws/Adder.lean ====
section
/-! SUPPORT. What each stage of the adder does, in arithmetic (43_adder.md R142 to R152). -/

namespace Sys2Proof.Machine

/-! S4. -/

/-- The alignment shifter takes the larger exponent, keeps the mantissa that has it and shifts the other (R142). -/
theorem align_cases (xa ma xb mb : Nat) :
    (xb ≤ xa ∧ align xa ma xb mb = ⟨xa, ma, srs mb (xa - xb)⟩) ∨
    (xa < xb ∧ align xa ma xb mb = ⟨xb, srs ma (xb - xa), mb⟩) := by
  by_cases h : xb ≤ xa
  · exact .inl ⟨h, if_pos h⟩
  · exact .inr ⟨by omega, if_neg h⟩

/-- Swapped operands are aligned to the swapped mantissas. -/
theorem align_swap (xa ma xb mb : Nat) :
    align xb mb xa ma = ⟨(align xa ma xb mb).x, (align xa ma xb mb).mb, (align xa ma xb mb).ma⟩ := by
  rcases Nat.lt_trichotomy xa xb with h | h | h
  · rw [align, align, if_pos (by omega), if_neg (by omega)]
  · subst h; simp [align]
  · rw [align, align, if_neg (by omega), if_pos (by omega)]

/-! S5. -/

/-- The combine step: what it answers in each of its four cases (R145, R146). -/
theorem combine_cases (sa sb : BitVec 1) (al : Aligned) :
    (sa = sb ∧ combine sa sb al = ⟨sa, al.x, al.ma + al.mb⟩) ∨
    (sa ≠ sb ∧ al.mb < al.ma ∧ combine sa sb al = ⟨sa, al.x, al.ma - al.mb⟩) ∨
    (sa ≠ sb ∧ al.ma < al.mb ∧ combine sa sb al = ⟨sb, al.x, al.mb - al.ma⟩) ∨
    (sa ≠ sb ∧ al.ma = al.mb ∧ combine sa sb al = ⟨0#1, al.x, 0⟩) := by
  unfold combine
  by_cases hs : sa = sb
  · exact .inl ⟨hs, if_pos hs⟩
  · rcases Nat.lt_trichotomy al.ma al.mb with h | h | h
    · exact .inr (.inr (.inl ⟨hs, h, by rw [if_neg hs, if_neg (by omega), if_pos h]⟩))
    · exact .inr (.inr (.inr ⟨hs, h, by rw [if_neg hs, if_neg (by omega), if_neg (by omega)]⟩))
    · exact .inr (.inl ⟨hs, h, by rw [if_neg hs, if_pos h]⟩)

/-! S6. -/

/-- Right normalisation leaves the sign, and leaves a 21-bit mantissa below `2^20`, so its loop would not run again (R147). -/
theorem rightNormalise_cases (t : Interim) :
    (t.m < 2 ^ 20 ∧ rightNormalise t = t) ∨
    (2 ^ 20 ≤ t.m ∧ rightNormalise t = ⟨t.s, t.x + 1, srs t.m 1⟩) := by
  unfold rightNormalise Config.top
  by_cases h : 2 ^ 20 ≤ t.m
  · exact .inr ⟨h, if_pos h⟩
  · exact .inl ⟨by omega, if_neg h⟩

theorem rightNormalise_lt (t : Interim) (h : t.m < 2 ^ 21) : (rightNormalise t).m < 2 ^ 20 := by
  rcases rightNormalise_cases t with ⟨hlt, he⟩ | ⟨_, he⟩
  · rw [he]; exact hlt
  · rw [he]
    by_cases hm : t.m % 2 ^ 1 = 0
    · rw [srs_exact (by omega) hm]; dsimp only; omega
    · rw [srs_sticky (by omega) hm]; dsimp only; omega

/-- The loop of left normalisation, closed: it shifts by some `n`, stops at exponent 1 or at a leading bit 19, and never above
bit 19 (R148, R149). -/
theorem leftShifts_spec (x m : Nat) (hx : 1 ≤ x) (hm : m < 2 ^ 20) :
    ∃ n, n < x ∧ leftShifts x m = (x - n, m * 2 ^ n) ∧ m * 2 ^ n < 2 ^ 20 ∧
      (2 ^ 19 ≤ m * 2 ^ n ∨ x - n = 1) ∧ (n = 0 ∨ m * 2 ^ n / 2 < 2 ^ 19) := by
  induction x generalizing m with
  | zero => omega
  | succ x ih =>
    match x, ih with
    | 0, _ => exact ⟨0, by omega, by simp [leftShifts], by omega, .inr rfl, .inl rfl⟩
    | x + 1, ih =>
      by_cases h : m < 2 ^ 19
      · obtain ⟨n, hn, he, hlt, hor, hb⟩ := ih (m <<< 1) (by omega) (by rw [Nat.shiftLeft_eq]; omega)
        have e : m <<< 1 * 2 ^ n = m * 2 ^ (n + 1) := by rw [Nat.shiftLeft_eq, Nat.pow_succ]; ring
        rw [e] at he hlt hor hb
        refine ⟨n + 1, by omega, ?_, hlt, ?_, ?_⟩
        · rw [leftShifts, Config.top, if_pos h, he]
          congr 1
          omega
        · rcases hor with hor | hor
          · exact .inl hor
          · exact .inr (by omega)
        · right
          rcases hb with hb | hb
          · subst hb; omega
          · exact hb
      · exact ⟨0, by omega, by rw [leftShifts, Config.top, if_neg h]; simp, by omega, .inl (by omega), .inl rfl⟩

/-- Left normalisation leaves the sign and shifts as `leftShifts_spec` says. -/
theorem leftNormalise_spec (t : Interim) (hx : 1 ≤ t.x) (hm : t.m < 2 ^ 20) :
    ∃ n, n < t.x ∧ leftNormalise t = ⟨t.s, t.x - n, t.m * 2 ^ n⟩ ∧ t.m * 2 ^ n < 2 ^ 20 ∧
      (2 ^ 19 ≤ t.m * 2 ^ n ∨ t.x - n = 1) := by
  obtain ⟨n, hn, he, hlt, hor, _⟩ := leftShifts_spec t.x t.m hx hm
  exact ⟨n, hn, by rw [leftNormalise, he], hlt, hor⟩

/-! S7. -/

/-- The rounding decision in arithmetic: the guard region is above half, or is half and the kept bit is odd (R150, R151). -/
theorem roundsUp_iff (m : Nat) :
    roundsUp m = true ↔ 128 < m % 256 ∨ (m % 256 = 128 ∧ m / 256 % 2 = 1) := by
  simp only [roundsUp, guardBit, roundBit, stickyBit, keptBit, Nat.testBit_eq_decide_div_mod_eq, Bool.and_eq_true,
    Bool.or_eq_true, decide_eq_true_eq, bne_iff_ne]
  omega

/-- The significand that the rounding stage keeps, before the carry fix (R150, R151): the nearest integer to `m / 2^8`, ties to
even. -/
theorem rounded_isNearestEven (m : Nat) :
    IsNearestEven m (2 ^ 8) ((m >>> Config.guardBits) + (if roundsUp m then 1 else 0)) := by
  unfold IsNearestEven Config.guardBits
  rw [Nat.shiftRight_eq_div_pow]
  by_cases h : roundsUp m = true
  · rw [if_pos h]
    rw [roundsUp_iff] at h
    omega
  · rw [if_neg h]
    rw [roundsUp_iff] at h
    omega

/-- The rounding stage: sign kept, and either no carry or a carry into the exponent with the significand 2048 (R152). -/
theorem roundGRS_cases (t : Interim) (hm : t.m < 2 ^ 20) :
    ∃ q, IsNearestEven t.m (2 ^ 8) q ∧ q ≤ 4096 ∧
      ((q < 4096 ∧ roundGRS t = ⟨t.s, t.x, q⟩) ∨ (q = 4096 ∧ roundGRS t = ⟨t.s, t.x + 1, 2048⟩)) := by
  refine ⟨_, rounded_isNearestEven t.m, ?_, ?_⟩
  · unfold Config.guardBits
    rw [Nat.shiftRight_eq_div_pow]
    split <;> omega
  · have hq : (t.m >>> Config.guardBits) + (if roundsUp t.m then 1 else 0) ≤ 4096 := by
      unfold Config.guardBits
      rw [Nat.shiftRight_eq_div_pow]
      split <;> omega
    unfold roundGRS
    generalize (t.m >>> Config.guardBits) + (if roundsUp t.m then 1 else 0) = q at *
    dsimp only
    by_cases h : q < 4096
    · exact .inl ⟨h, if_neg (by omega)⟩
    · have : q = 4096 := by omega
      subst this
      exact .inr ⟨rfl, by simp⟩

/-! S8. -/

/-- The result mux of the full path, its four sources in their order (R153 to R156). -/
theorem finalise_cases (t : Interim) :
    (t.m = 0 ∧ finalise t = zeroOf t.s) ∨
    (t.m ≠ 0 ∧ 15 ≤ t.x ∧ finalise t = infinityOf t.s) ∨
    (t.m ≠ 0 ∧ t.x = 1 ∧ t.m < 2048 ∧ finalise t = packNat t.s 0 t.m) ∨
    (t.m ≠ 0 ∧ t.x < 15 ∧ (t.x ≠ 1 ∨ 2048 ≤ t.m) ∧ finalise t = packNat t.s t.x t.m) := by
  unfold finalise Config.expAllOnes Config.expMinNormal Config.fracBits
  by_cases h0 : t.m = 0
  · exact .inl ⟨h0, if_pos h0⟩
  · by_cases h1 : 15 ≤ t.x
    · exact .inr (.inl ⟨h0, h1, by rw [if_neg h0, if_pos h1]⟩)
    · by_cases h2 : t.x = 1 ∧ t.m < 2 ^ 11
      · exact .inr (.inr (.inl ⟨h0, h2.1, h2.2, by rw [if_neg h0, if_neg h1, if_pos h2]⟩))
      · exact .inr (.inr (.inr ⟨h0, by omega, by omega, by rw [if_neg h0, if_neg h1, if_neg h2]⟩))

end Sys2Proof.Machine
end

