-- ==== Sys2Proof/Laws/Codec.lean ====
section
/-! SUPPORT. The cases of ENCODE and DECODE on naturals, without the signed exponent (40_codec_encode.md R87 to R92;
41_codec_decode.md R102 to R106). -/

namespace Sys2Proof.Machine

/-! ENCODE of a binary64 normal, by its stored exponent `ex`: `exp_bits = ex - 1016` and `sh = 1058 - ex` (R91). -/

/-- `exp_bits <= 0`: the subnormal path (R87). -/
theorem encodeFinite_of_le (s : BitVec 1) (ex f : Nat) (h : ex ≤ 1016) :
    encodeFinite s ex f =
      packNat s 0 (min (if 55 ≤ 1058 - ex then 0 else rne (2 ^ 52 + f) (1058 - ex)) 2047) := by
  have hxb : ((ex : Int) - 1023 + (Config.bias : Nat)) ≤ 0 := by simp only [Config.bias]; omega
  have hsh : (35 - ((ex : Int) - 1023)).toNat = 1058 - ex := by omega
  simp only [encodeFinite, if_pos hxb, encodeSubnormal, hsh, Config.fracMax]
  congr 1
  generalize (if 55 ≤ 1058 - ex then 0 else rne (2 ^ 52 + f) (1058 - ex)) = q
  split <;> omega

/-- `exp_bits >= 15`: overflow (R88). -/
theorem encodeFinite_of_ge (s : BitVec 1) (ex f : Nat) (h : 1031 ≤ ex) : encodeFinite s ex f = infinityOf s := by
  have hxb : ¬ ((ex : Int) - 1023 + (Config.bias : Nat)) ≤ 0 := by simp only [Config.bias]; omega
  have hov : ((Config.expAllOnes : Nat) : Int) ≤ (ex : Int) - 1023 + (Config.bias : Nat) := by
    simp only [Config.bias, Config.expAllOnes]; omega
  simp only [encodeFinite, if_neg hxb, if_pos hov]

/-- `1 <= exp_bits <= 14`: the normal path (R89). -/
theorem encodeFinite_of_between (s : BitVec 1) (ex f : Nat) (h : 1017 ≤ ex) (h' : ex ≤ 1030) :
    encodeFinite s ex f = encodeNormal s (ex - 1016) f := by
  have hxb : ¬ ((ex : Int) - 1023 + (Config.bias : Nat)) ≤ 0 := by simp only [Config.bias]; omega
  have hov : ¬ ((Config.expAllOnes : Nat) : Int) ≤ (ex : Int) - 1023 + (Config.bias : Nat) := by
    simp only [Config.bias, Config.expAllOnes]; omega
  have hto : ((ex : Int) - 1023 + (Config.bias : Nat)).toNat = ex - 1016 := by simp only [Config.bias]; omega
  simp only [encodeFinite, if_neg hxb, if_neg hov, hto]

/-- The rounded fraction of the normal path is at most 2048 (R89). -/
theorem rne_fraction_le (f : Nat) (h : f < 2 ^ 52) : rne f 41 ≤ 2048 := by
  unfold rne
  rw [Nat.shiftRight_eq_div_pow]
  dsimp only
  split <;> omega

/-- The normal path: no carry, a carry into the exponent, or a carry that overflows (R89). -/
theorem encodeNormal_cases (s : BitVec 1) (xb f : Nat) (hf : f < 2 ^ 52) :
    (rne f 41 ≤ 2047 ∧ encodeNormal s xb f = packNat s xb (rne f 41)) ∨
    (rne f 41 = 2048 ∧ xb < 14 ∧ encodeNormal s xb f = packNat s (xb + 1) 0) ∨
    (rne f 41 = 2048 ∧ 14 ≤ xb ∧ encodeNormal s xb f = infinityOf s) := by
  have hle := rne_fraction_le f hf
  unfold encodeNormal Config.fracMax Config.expAllOnes
  generalize rne f 41 = q at *
  dsimp only
  by_cases h : q ≤ 2047
  · exact .inl ⟨h, if_neg (by omega)⟩
  · by_cases hx : xb < 14
    · exact .inr (.inl ⟨by omega, hx, by rw [if_pos (by omega), if_neg (by omega)]⟩)
    · exact .inr (.inr ⟨by omega, by omega, by rw [if_pos (by omega), if_pos (by omega)]⟩)

/-- ENCODE of a binary64 normal is `encodeFinite` of its fields (R85, R90). -/
theorem encodeF64_of_normal (x : F64) (h0 : f64Exponent x ≠ 0) (h1 : f64Exponent x ≠ 2047) :
    encodeF64 x = encodeFinite (f64Sign x) (f64Exponent x) (f64Fraction x) := by
  simp [encodeF64, f64IsNaN, f64IsInf, f64IsZero, f64IsSubnormal, h0, h1]

/-- ENCODE of a binary64 zero or subnormal is a zero of its sign (R84, R92). -/
theorem encodeF64_of_exponent_zero (x : F64) (h : f64Exponent x = 0) : encodeF64 x = zeroOf (f64Sign x) := by
  by_cases hf : f64Fraction x = 0 <;>
    simp [encodeF64, f64IsNaN, f64IsInf, f64IsZero, f64IsSubnormal, h, hf]

/-! DECODE by the fields of the pattern. -/

/-- `isZero` and `isInf` in fields: the 15 bits they test are exponent and fraction (R59). -/
theorem low15_toNat (p : Pattern16) :
    (p.extractLsb' 0 15).toNat = (exponentOf p).toNat * 2 ^ 11 + (fractionOf p).toNat := by
  have := p.isLt
  rw [Laws.toNat_slice, exponentOf_toNat, fractionOf_toNat]
  omega

theorem isZero_iff (p : Pattern16) : isZero p = true ↔ exponentOf p = 0#4 ∧ fractionOf p = 0#11 := by
  have h := low15_toNat p
  have := (fractionOf p).isLt
  simp only [isZero, beq_iff_eq, ← BitVec.toNat_inj, h, BitVec.toNat_ofNat]
  omega

theorem isInf_iff (p : Pattern16) : isInf p = true ↔ exponentOf p = 15#4 ∧ fractionOf p = 0#11 := by
  have h := low15_toNat p
  have := (fractionOf p).isLt
  have := (exponentOf p).isLt
  simp only [isInf, beq_iff_eq, ← BitVec.toNat_inj, h, BitVec.toNat_ofNat]
  omega

theorem isNaN_iff (p : Pattern16) : isNaN p = true ↔ exponentOf p = 15#4 ∧ fractionOf p ≠ 0#11 := by
  simp [isNaN]

/-- DECODE of a normal (R104). -/
theorem decodePattern_of_normal (p : Pattern16) (h0 : exponentOf p ≠ 0#4) (h1 : exponentOf p ≠ 15#4) :
    decodePattern p = decodeNormal (signOf p) (exponentOf p).toNat (fractionOf p).toNat := by
  have hi : ¬ isInf p = true := fun h => h1 ((isInf_iff p).1 h).1
  have hz : ¬ isZero p = true := fun h => h0 ((isZero_iff p).1 h).1
  simp only [decodePattern, if_neg hi, if_neg hz]
  simp [isNaN, isSubnormal, h0, h1]

/-- DECODE of a subnormal (R103). -/
theorem decodePattern_of_subnormal (p : Pattern16) (h0 : exponentOf p = 0#4) (h1 : fractionOf p ≠ 0#11) :
    decodePattern p = decodeSubnormal (signOf p) (fractionOf p).toNat := by
  have hi : ¬ isInf p = true := fun h => by have := ((isInf_iff p).1 h).1; rw [h0] at this; cases this
  have hz : ¬ isZero p = true := fun h => h1 ((isZero_iff p).1 h).2
  simp only [decodePattern, if_neg hi, if_neg hz]
  simp [isNaN, isSubnormal, h0, h1]

end Sys2Proof.Machine
end

