-- ==== Sys2Proof/Laws/PerInstr.lean ====
section
/-! SUPPORT. The family of statements about every operation as syntax: its request word carries its own operation select, which
is not the reserved one, and it is well formed (30_encoding.md R57, R72, R73). -/

namespace Sys2Proof.Laws.SelectOfWord

/-- The word of an operation carries the select of its row and names an operation. -/
def Statement (i : Instr) : Prop :=
  i.wellFormed = true ∧ (encodeInstr i).extractLsb' 80 2 = i.select ∧ i.select ≠ reservedSelect

theorem encode (x : F64) : Statement (.encode x) :=
  ⟨rfl, slice_append_top (m := 16) (n := 64) _ _ _, (by decide : 0#2 ≠ 3#2)⟩

theorem decode (p : Pattern16) : Statement (.decode p) :=
  ⟨rfl, slice_append_top (m := 16) (n := 64) _ _ _, (by decide : 1#2 ≠ 3#2)⟩

theorem add (a b : Pattern16) : Statement (.add a b) :=
  ⟨rfl, slice_append_top (m := 16) (n := 64) _ _ _, (by decide : 2#2 ≠ 3#2)⟩

end Sys2Proof.Laws.SelectOfWord
end

