-- ==== Sys2Proof/Laws/State.lean ====
section
/-! SUPPORT. One lemma per field per update of the state, so that no proof unfolds a record update. -/

namespace Sys2Proof.Machine

/-! A delivered result. -/

@[simp] theorem State.respond_rstIn (s : State) (r : BitVec 64) : (s.respond r).rstIn = s.rstIn := rfl
@[simp] theorem State.respond_reqValid (s : State) (r : BitVec 64) : (s.respond r).reqValid = s.reqValid := rfl
@[simp] theorem State.respond_reqOp (s : State) (r : BitVec 64) : (s.respond r).reqOp = s.reqOp := rfl
@[simp] theorem State.respond_reqA (s : State) (r : BitVec 64) : (s.respond r).reqA = s.reqA := rfl
@[simp] theorem State.respond_reqB (s : State) (r : BitVec 64) : (s.respond r).reqB = s.reqB := rfl
@[simp] theorem State.respond_upcoming (s : State) (r : BitVec 64) : (s.respond r).upcoming = s.upcoming := rfl
@[simp] theorem State.respond_rspValid (s : State) (r : BitVec 64) : (s.respond r).rspValid = true := rfl
@[simp] theorem State.respond_rspR (s : State) (r : BitVec 64) : (s.respond r).rspR = r := rfl
@[simp] theorem State.respond_rspIll (s : State) (r : BitVec 64) : (s.respond r).rspIll = false := rfl
@[simp] theorem State.respond_freeCount (s : State) (r : BitVec 64) : (s.respond r).freeCount = s.freeCount := rfl

/-! A cycle without a response. -/

@[simp] theorem State.noResponse_rstIn (s : State) : (s.noResponse).rstIn = s.rstIn := rfl
@[simp] theorem State.noResponse_reqValid (s : State) : (s.noResponse).reqValid = s.reqValid := rfl
@[simp] theorem State.noResponse_reqOp (s : State) : (s.noResponse).reqOp = s.reqOp := rfl
@[simp] theorem State.noResponse_reqA (s : State) : (s.noResponse).reqA = s.reqA := rfl
@[simp] theorem State.noResponse_reqB (s : State) : (s.noResponse).reqB = s.reqB := rfl
@[simp] theorem State.noResponse_upcoming (s : State) : (s.noResponse).upcoming = s.upcoming := rfl
@[simp] theorem State.noResponse_rspValid (s : State) : (s.noResponse).rspValid = false := rfl
@[simp] theorem State.noResponse_rspR (s : State) : (s.noResponse).rspR = Config.unspecifiedRspR s.freeCount := rfl
@[simp] theorem State.noResponse_rspIll (s : State) : (s.noResponse).rspIll = Config.unspecifiedRspIll s.freeCount := rfl
@[simp] theorem State.noResponse_freeCount (s : State) : (s.noResponse).freeCount = s.freeCount + 1 := rfl

/-! The answer to the reserved select. -/

@[simp] theorem State.answerReserved_rstIn (s : State) : (s.answerReserved).rstIn = s.rstIn := rfl
@[simp] theorem State.answerReserved_reqValid (s : State) : (s.answerReserved).reqValid = s.reqValid := rfl
@[simp] theorem State.answerReserved_reqOp (s : State) : (s.answerReserved).reqOp = s.reqOp := rfl
@[simp] theorem State.answerReserved_reqA (s : State) : (s.answerReserved).reqA = s.reqA := rfl
@[simp] theorem State.answerReserved_reqB (s : State) : (s.answerReserved).reqB = s.reqB := rfl
@[simp] theorem State.answerReserved_upcoming (s : State) : (s.answerReserved).upcoming = s.upcoming := rfl
@[simp] theorem State.answerReserved_rspValid (s : State) : (s.answerReserved).rspValid = true := rfl
@[simp] theorem State.answerReserved_rspR (s : State) : (s.answerReserved).rspR = Config.unspecifiedRspR s.freeCount := rfl
@[simp] theorem State.answerReserved_rspIll (s : State) : (s.answerReserved).rspIll = true := rfl
@[simp] theorem State.answerReserved_freeCount (s : State) : (s.answerReserved).freeCount = s.freeCount + 1 := rfl

/-! A request presented. -/

@[simp] theorem State.present_rstIn (s : State) (r : Request) : (s.present r).rstIn = false := rfl
@[simp] theorem State.present_reqValid (s : State) (r : Request) : (s.present r).reqValid = true := rfl
@[simp] theorem State.present_reqOp (s : State) (r : Request) : (s.present r).reqOp = r.op := rfl
@[simp] theorem State.present_reqA (s : State) (r : Request) : (s.present r).reqA = r.a := rfl
@[simp] theorem State.present_reqB (s : State) (r : Request) : (s.present r).reqB = r.b := rfl
@[simp] theorem State.present_upcoming (s : State) (r : Request) : (s.present r).upcoming = s.upcoming := rfl
@[simp] theorem State.present_rspValid (s : State) (r : Request) : (s.present r).rspValid = s.rspValid := rfl
@[simp] theorem State.present_rspR (s : State) (r : Request) : (s.present r).rspR = s.rspR := rfl
@[simp] theorem State.present_rspIll (s : State) (r : Request) : (s.present r).rspIll = s.rspIll := rfl
@[simp] theorem State.present_freeCount (s : State) (r : Request) : (s.present r).freeCount = s.freeCount := rfl

@[simp] theorem State.present_request (s : State) (r : Request) : (s.present r).request = r := rfl

/-! The next inputs: the response port and the counter are not touched, and the inputs are what the outside drives. -/

theorem State.advance_nil (s : State) (h : s.upcoming = []) :
    s.advance = { s with rstIn := false, reqValid := false } := by
  simp [State.advance, h]

theorem State.advance_cons (s : State) (d : Drive) (ds : List Drive) (h : s.upcoming = d :: ds) :
    s.advance = { s with rstIn := d.rst, reqValid := d.valid, reqOp := d.op, reqA := d.a, reqB := d.b, upcoming := ds } := by
  simp [State.advance, h]

@[simp] theorem State.advance_rspValid (s : State) : s.advance.rspValid = s.rspValid := by
  unfold State.advance; split <;> rfl

@[simp] theorem State.advance_rspR (s : State) : s.advance.rspR = s.rspR := by
  unfold State.advance; split <;> rfl

@[simp] theorem State.advance_rspIll (s : State) : s.advance.rspIll = s.rspIll := by
  unfold State.advance; split <;> rfl

@[simp] theorem State.advance_freeCount (s : State) : s.advance.freeCount = s.freeCount := by
  unfold State.advance; split <;> rfl

end Sys2Proof.Machine
end

