-- ==== Sys2Proof/Laws/Step.lean ====
section
/-! SUPPORT. What a cycle can do, said once (10_state.md R30, R36), and what each meaning leaves. -/

namespace Sys2Proof.Machine

/-- Every operation answers with its result and touches nothing but the response port. -/
theorem exec_eq_respond (i : Instr) (s : State) : exec i s = .next (s.respond (resultOf i)) := by
  cases i <;> rfl

theorem work_eq_reset_iff (s : State) : s.work = .reset ↔ s.rstIn = true := by
  unfold State.work
  split
  · simp [*]
  · split
    · split <;> simp [*]
    · simp [*]

theorem work_of_request (s : State) (hr : s.rstIn = false) (hv : s.reqValid = true) :
    s.work = match decodeRequest s.request with | .ok i => .run i | .error _ => .refuse := by
  simp only [State.work, hr, hv]; rfl

/-- A step that answers a next state either delivers the result of the operation its request names, or delivers no response
because of a reset or because no request is presented. -/
theorem step_next_cases {s t : State} (h : step s = .next t) :
    (∃ i, s.work = .run i ∧ t = s.advance.respond (resultOf i)) ∨
    ((s.work = .reset ∨ s.work = .idle) ∧ t = s.advance.noResponse) := by
  unfold step at h
  split at h
  · next hw => cases h; exact .inr ⟨.inl hw, rfl⟩
  · next hw => cases h; exact .inr ⟨.inr hw, rfl⟩
  · next i hw => rw [exec_eq_respond] at h; cases h; exact .inl ⟨i, hw, rfl⟩
  · cases h

/-- A refusal of the machine is the reserved operation select's and carries the hardware's answer. -/
theorem step_refused_cases {s : State} {r : Refusal} (h : step s = .refused r) :
    s.work = .refuse ∧ r = .reservedOperationSelect s.advance.answerReserved := by
  unfold step at h
  split at h
  · cases h
  · cases h
  · rw [exec_eq_respond] at h; cases h
  · next hw => cases h; exact ⟨hw, rfl⟩

end Sys2Proof.Machine
end

