-- ==== Sys2Proof/Laws/Sticky.lean ====
section
/-! SUPPORT. Why the sticky bit makes the adder's rounding exact: adding or subtracting a value shifted with sticky is shifting
the exact sum with sticky, and rounding a value shifted with sticky is rounding the value (43_adder.md R142 to R146, R151, R159). -/

namespace Sys2Proof.Machine

/-- A shift with sticky in one formula: the quotient, made odd if something was lost. -/
theorem srs_eq (m : Nat) {d : Nat} (hd : d < 64) :
    srs m d = if m % 2 ^ d = 0 then m / 2 ^ d else 2 * (m / 2 ^ d / 2) + 1 := by
  split
  · next h => exact srs_exact hd h
  · next h => exact srs_sticky hd h

/-- Adding to an even mantissa a mantissa shifted with sticky shifts the exact sum with sticky (R142, R145). -/
theorem add_srs (m n : Nat) {d : Nat} (hd : d < 64) (he : m % 2 = 0) :
    m + srs n d = srs (m * 2 ^ d + n) d := by
  have hp := Nat.two_pow_pos d
  have hq : (m * 2 ^ d + n) / 2 ^ d = m + n / 2 ^ d := by
    rw [Nat.add_comm, Nat.add_mul_div_right _ _ hp, Nat.add_comm]
  have hr : (m * 2 ^ d + n) % 2 ^ d = n % 2 ^ d := by
    rw [Nat.add_comm, Nat.add_mul_mod_self_right]
  rw [srs_eq n hd, srs_eq _ hd, hq, hr]
  split <;> omega

/-- Subtracting from an even mantissa a smaller mantissa shifted with sticky shifts the exact difference with sticky (R142, R146). -/
theorem sub_srs (m n : Nat) {d : Nat} (hd : d < 64) (he : m % 2 = 0) (hle : n ≤ m * 2 ^ d) :
    m - srs n d = srs (m * 2 ^ d - n) d := by
  have hp := Nat.two_pow_pos d
  have hdm := Nat.div_add_mod n (2 ^ d)
  have hlt := Nat.mod_lt n hp
  rw [srs_eq n hd, srs_eq _ hd]
  generalize hf : n / 2 ^ d = f at *
  generalize hr : n % 2 ^ d = r at *
  by_cases h0 : r = 0
  · obtain ⟨k, rfl⟩ : ∃ k, m = f + k := by
      refine ⟨m - f, ?_⟩
      have : f ≤ m := by
        apply Nat.le_of_mul_le_mul_right _ hp
        rw [Nat.mul_comm] at hdm
        omega
      omega
    have e : (f + k) * 2 ^ d - n = k * 2 ^ d := by
      rw [← hdm, h0, Nat.add_mul, Nat.mul_comm f]
      omega
    rw [e, Nat.mul_mod_left, Nat.mul_div_cancel _ hp, if_pos h0, if_pos rfl]
    omega
  · obtain ⟨k, rfl⟩ : ∃ k, m = f + 1 + k := by
      refine ⟨m - (f + 1), ?_⟩
      have : f < m := by
        apply Nat.lt_of_mul_lt_mul_right (a := 2 ^ d)
        rw [Nat.mul_comm] at hdm
        omega
      omega
    have e : (f + 1 + k) * 2 ^ d - n = (2 ^ d - r) + k * 2 ^ d := by
      rw [← hdm, Nat.add_mul, Nat.add_mul, Nat.mul_comm f, Nat.one_mul]
      omega
    have hm : (2 ^ d - r + k * 2 ^ d) % 2 ^ d = 2 ^ d - r := by
      rw [Nat.add_mul_mod_self_right, Nat.mod_eq_of_lt (by omega)]
    have hd' : (2 ^ d - r + k * 2 ^ d) / 2 ^ d = k := by
      rw [Nat.add_mul_div_right _ _ hp, Nat.div_eq_of_lt (by omega), Nat.zero_add]
    rw [e, hm, hd', if_neg h0, if_neg (by omega)]
    omega

/-- A value is at most a multiple of `D` exactly when its quotient is smaller, or equal with nothing left. -/
theorem le_mul_iff_div {n D H : Nat} (hD : 0 < D) : n ≤ D * H ↔ n / D < H ∨ (n / D = H ∧ n % D = 0) := by
  have hdm := Nat.div_add_mod n D
  have hlt := Nat.mod_lt n hD
  constructor
  · intro h
    by_contra hc
    rcases Nat.lt_trichotomy (n / D) H with h1 | h1 | h1
    · exact hc (.inl h1)
    · rw [h1] at hdm
      exact hc (.inr ⟨h1, by omega⟩)
    · have := Nat.mul_le_mul_left D h1
      rw [Nat.mul_succ] at this
      omega
  · rintro (h | ⟨h, h0⟩)
    · have := Nat.mul_le_mul_left D h
      rw [Nat.mul_succ] at this
      omega
    · rw [h, h0] at hdm
      omega

/-- Rounding a value shifted with sticky, with at least two bits below the kept ones, is rounding the value (R144, R151). -/
theorem isNearestEven_srs (n q : Nat) {d j : Nat} (hd : d < 64) (hj : 2 ≤ j) :
    IsNearestEven (srs n d) (2 ^ j) q ↔ IsNearestEven n (2 ^ (d + j)) q := by
  obtain ⟨i, rfl⟩ : ∃ i, j = i + 2 := ⟨j - 2, by omega⟩
  have hp := Nat.two_pow_pos d
  have hpow : 2 ^ (d + (i + 2)) = 2 ^ d * (4 * 2 ^ i) := by rw [Nat.pow_add, Nat.pow_add]; ring
  have hpow' : 2 ^ (i + 2) = 4 * 2 ^ i := by rw [Nat.pow_add]; ring
  have up := @le_mul_iff_div n (2 ^ d) ((2 * q + 1) * (2 * 2 ^ i)) hp
  have upr := @Nat.le_div_iff_mul_le (2 ^ d) ((2 * q + 1) * (2 * 2 ^ i)) n hp
  have dn := @Nat.le_div_iff_mul_le (2 ^ d) ((2 * q) * (2 * 2 ^ i)) (n + 2 ^ d * (2 * 2 ^ i)) hp
  have dnr := @le_mul_iff_div (n + 2 ^ d * (2 * 2 ^ i)) (2 ^ d) ((2 * q) * (2 * 2 ^ i)) hp
  rw [Nat.add_mul_div_left _ _ hp] at dn dnr
  rw [Nat.add_mul_mod_self_left] at dnr
  rw [srs_eq n hd]
  unfold IsNearestEven
  rw [hpow, hpow']
  have e1 : (2 * q + 1) * (2 ^ d * (4 * 2 ^ i)) = 2 * (2 ^ d * ((2 * q + 1) * (2 * 2 ^ i))) := by ring
  have e2 : 2 * q * (2 ^ d * (4 * 2 ^ i)) = 2 * (2 ^ d * (2 * q * (2 * 2 ^ i))) := by ring
  have e3 : 2 ^ d * (4 * 2 ^ i) = 2 * (2 ^ d * (2 * 2 ^ i)) := by ring
  have e4 : (2 * q + 1) * (4 * 2 ^ i) = 2 * ((2 * q + 1) * (2 * 2 ^ i)) := by ring
  have e5 : 2 * q * (4 * 2 ^ i) = 2 * (2 * q * (2 * 2 ^ i)) := by ring
  have c1 : (2 * q + 1) * (2 * 2 ^ i) * 2 ^ d = 2 ^ d * ((2 * q + 1) * (2 * 2 ^ i)) := by ring
  have c2 : 2 * q * (2 * 2 ^ i) * 2 ^ d = 2 ^ d * (2 * q * (2 * 2 ^ i)) := by ring
  rw [e1, e2, e3, e4, e5]
  rw [c1] at upr
  rw [c2] at dn
  have even1 : (2 * q + 1) * (2 * 2 ^ i) = 2 * ((2 * q + 1) * 2 ^ i) := by ring
  have even2 : 2 * q * (2 * 2 ^ i) = 2 * (2 * q * 2 ^ i) := by ring
  generalize (2 * q + 1) * (2 * 2 ^ i) = H at *
  generalize 2 * q * (2 * 2 ^ i) = K at *
  generalize (2 * q + 1) * 2 ^ i = H' at *
  generalize 2 * q * 2 ^ i = K' at *
  generalize 2 ^ d * H = DH at *
  generalize 2 ^ d * K = DK at *
  generalize 2 ^ d * (2 * 2 ^ i) = DI at *
  generalize 2 ^ i = I at *
  generalize n / 2 ^ d = f at *
  generalize n % 2 ^ d = r at *
  split <;> omega

end Sys2Proof.Machine
end

