-- ==== Sys2Proof/Laws/Strings.lean ====
section
/-! SUPPORT. Filtering and reading of binary strings (42_codec_binary_string.md R117, R118). -/

namespace Sys2Proof.Machine

/-- Filtering works piece by piece (R118). -/
theorem binaryDigits_append (s t : BinString) : binaryDigits (s ++ t) = binaryDigits s ++ binaryDigits t := by
  simp [binaryDigits]

/-- What is left after filtering is kept by filtering. -/
theorem binaryDigits_idem (s : BinString) : binaryDigits (binaryDigits s) = binaryDigits s := by
  simp [binaryDigits]

/-- A character left after filtering is one of the two digits. -/
theorem mem_binaryDigits {c : Char} {s : BinString} (h : c ∈ binaryDigits s) : c = '0' ∨ c = '1' := by
  have := (List.mem_filter.1 h).2
  simpa [isBinaryDigit] using this

/-- The last digit is the least significant (R117). -/
theorem binaryValue_concat (t : BinString) (c : Char) :
    binaryValue (t ++ [c]) = binaryValue t * 2 + (if c = '1' then 1 else 0) := by
  simp [binaryValue, List.foldl_append]

/-- A digit sequence of `n` characters spells a number below `2^n`. -/
theorem binaryValue_lt (t : BinString) : binaryValue t < 2 ^ t.length := by
  induction t using List.reverseRecOn with
  | nil => simp [binaryValue]
  | append_singleton t c ih =>
    rw [binaryValue_concat, List.length_append, List.length_singleton, Nat.pow_succ]
    split <;> omega

end Sys2Proof.Machine
end

