-- ==== Sys2Proof/Tests/Slice0.lean ====
section
/-! SUPPORT. The model's own tests: words, results and strings of 95_test_vectors.md, 42_codec_binary_string.md R123 and 43_adder.md
R163, a smoke test of the one well-formedness check, and for each statement with hypotheses a witness that meets them. -/

namespace Sys2Proof.Tests

open Sys2Proof Sys2Proof.Machine

/-- The state with a request on the port right after reset. -/
def asked (op : BitVec 2) (a : BitVec 64) (b : BitVec 16) : State := State.reset.present ⟨op, a, b⟩

/-- The response after one step, if the step answers a next state with a legal response. -/
def answer (op : BitVec 2) (a : BitVec 64) (b : BitVec 16) : Option (BitVec 64) :=
  match step (asked op a b) with
  | .next t => if t.rspValid && !t.rspIll then some t.rspR else none
  | .fault _ => none
  | .refused _ => none

/-- The state a step answers. -/
def nextOf (s : State) : Option State :=
  match step s with
  | .next t => some t
  | .fault _ => none
  | .refused _ => none

/-! ## Words and well-formedness -/

/-- The reserved select is the one ill-formed thing (R73), and the check refuses it. -/
theorem test_wellFormed_refuses_reserved :
    (Request.mk 0b11#2 0 0).wellFormed = false ∧ (Request.mk 0b10#2 0 0).wellFormed = true := by decide

/-- `op` 00, `b` 0000, `a` the pattern of 1.5 (95_test_vectors.md program 1). -/
theorem test_decode_word_encode :
    decodeTableWord 88 0x000003FF8000000000000 = some (.encode 0x3FF8000000000000#64) := by decide

/-- `op` 01; bits 79:16 are ignored (R28). -/
theorem test_decode_word_decode :
    decodeTableWord 88 0x1FFFFFFFFFFFFFFFF4800 = some (.decode 0x4800#16) := by decide

/-- `op` 10, `b` 4200, `a` 3C00; bits 63:16 are ignored. -/
theorem test_decode_word_add :
    decodeTableWord 88 0x242000123456789AB3C00 = some (.add 0x3C00#16 0x4200#16) := by decide

/-- The reserved words of 95_test_vectors.md section 2.6, and a number above 82 bits. -/
theorem test_decode_word_refused :
    decodeTableWord 88 0x300000000000000000000 = none ∧ decodeTableWord 88 0x3FFFFFFFFFFFFFFFFFFFF = none ∧
    decodeTableWord 88 0x400000000000000000000 = none := by decide

theorem test_encode_words :
    encodeInstr (.encode 0x4004000000000000#64) = 0x000004004000000000000#82 ∧
    encodeInstr (.decode 0x3801#16) = 0x100000000000000003801#82 ∧
    encodeInstr (.add 0x1CCD#16 0x24CD#16) = 0x224CD0000000000001CCD#82 := by decide

/-- No two rows of the opcode table share a word: their masks are one and their matches differ. -/
theorem test_rows_disjoint :
    opcodeRows.Pairwise (fun r r' => r.mask = r'.mask ∧ r.matchBits ≠ r'.matchBits) := by decide

/-! ## One step (95_test_vectors.md sections 2.1 to 2.4) -/

/-- Carry into the exponent, into infinity, ties down and up, saturation. -/
theorem test_encode_normal :
    answer 0 0x3FB999999999999A 0 = some 0x1CCD ∧ answer 0 0x3FF0010000000000 0xFFFF = some 0x3800 ∧
    answer 0 0x3FF0030000000000 0 = some 0x3802 ∧ answer 0 0xBFFFFF0000000000 0 = some 0xC000 ∧
    answer 0 0x406FFF0000000000 0 = some 0x7800 ∧ answer 0 0xC070000000000000 0 = some 0xF800 := by decide

/-- Ties at the bottom, the clamp, the flush of binary64 subnormals, NaN. -/
theorem test_encode_small :
    answer 0 0xBED0000000000000 0 = some 0x8000 ∧ answer 0 0x3ED0000000000001 0 = some 0x0001 ∧
    answer 0 0x3EF4000000000000 0 = some 0x0002 ∧ answer 0 0xBF8FFFFFFFFFFFFF 0 = some 0x87FF ∧
    answer 0 0x8000000000000001 0 = some 0x8000 ∧ answer 0 0x7FF0000000000001 0 = some 0x7801 := by decide

theorem test_decode_normal :
    answer 1 0x0800 0 = some 0x3F90000000000000 ∧ answer 1 0xF7FF 0 = some 0xC06FFE0000000000 ∧
    answer 1 0xFFFFFFFFFFFF1CCD 0xFFFF = some 0x3FB99A0000000000 := by decide

theorem test_decode_other :
    answer 1 0x0555 0 = some 0x3F85540000000000 ∧ answer 1 0x8001 0 = some 0xBEE0000000000000 ∧
    answer 1 0x8000 0 = some 0x8000000000000000 ∧ answer 1 0xF800 0 = some 0xFFF0000000000000 ∧
    answer 1 0xFFFF 0 = some Config.decNan :=
  ⟨by decide, by decide, by decide, by decide, rfl⟩

/-- Sticky, ties, rounding carry, left shifts, cancellation, overflow by a rounding carry. -/
theorem test_add_full_path :
    answer 2 0x6000 0x0401 = some 0x6001 ∧ answer 2 0x3801 0x0020 = some 0x3802 ∧
    answer 2 0x3FFF 0x0020 = some 0x4000 ∧ answer 2 0x4000 0xB801 = some 0x37FE ∧
    answer 2 0xDC00 0x5C00 = some 0x0000 ∧ answer 2 0x1000 0x8FFF = some 0x0001 ∧
    answer 2 0xF7FF 0x9000 = some 0xF800 ∧ answer 2 0x77FF 0x0FFF = some 0x77FF := by decide

/-- NaN before infinity, opposite infinities, infinity before zero, the zero tests in their order. -/
theorem test_add_dispatch :
    answer 2 0xF800 0xFFFF = some 0x7801 ∧ answer 2 0x7800 0xF800 = some 0x7801 ∧
    answer 2 0x8000 0x7800 = some 0x7800 ∧ answer 2 0x0000 0x8000 = some 0x8000 ∧
    answer 2 0x8000 0x0000 = some 0x0000 ∧ answer 2 0x87FF 0x0000 = some 0x87FF := by decide

/-- The refusal of the reserved select carries `rsp_valid = 1`, `rsp_ill = 1` (R73). -/
theorem test_reserved_answer :
    (match step (asked 3 0 0) with
     | .refused (.reservedOperationSelect t) => t.rspValid && t.rspIll && !t.reqValid
     | .refused (.notModelled _) => false
     | .next _ => false
     | .fault _ => false) = true := by decide

/-- Reset in a cycle with a request: no response (R36), and the next request is answered (program 5). -/
theorem test_reset_cycle :
    ((nextOf { asked 2 0 0 with rstIn := true, upcoming := [Drive.ofRequest ⟨2, 0x8000, 0x8000⟩] }).bind fun t =>
      if t.rspValid then none else (nextOf t).map (·.rspR)) = some 0x8000 := by decide

/-! ## Strings (42_codec_binary_string.md R123) -/

theorem test_toBinaryString :
    toBinaryString 0x3C00 = ['0', '0', '1', '1', '1', '1', '0', '0', '0', '0', '0', '0', '0', '0', '0', '0'] ∧
    toBinaryString 0x7801 = "0111100000000001".toList := by decide

theorem test_fromBinaryString :
    fromBinaryString "0_0111_10000000000\n".toList = .ok 0x3C00 ∧
    fromBinaryString "00111100000000002".toList = .ok 0x3C00 ∧
    fromBinaryString "0011110000000002".toList = .error .formatError ∧
    fromBinaryString "0b0011110000000000".toList = .error .formatError ∧
    fromBinaryString [] = .error .formatError := by decide

/-- R124 and R125: any digit count on output, either prefix or none on input; a text with `g` is no base-16 text. Signs and white
space, before a prefix too, are not stated (N12). -/
theorem test_hex :
    isHexOutput 0x0001 "0x1".toList = true ∧ isHexOutput 0x0001 "0x0001".toList = true ∧
    readHex "0X3c00".toList = .pattern 0x3C00 ∧ readHex "3c00".toList = .pattern 0x3C00 ∧
    readHex "0x3g".toList = .formatError ∧ readHex "10000".toList = .notStated ∧
    readHex "-0x1".toList = .notStated ∧ readHex " 0x3c00".toList = .notStated ∧ readHex "-0xg".toList = .formatError := by decide

/-! ## Witnesses: hypotheses of the statements, met -/

theorem witness_StepRunsTheDecodedRequest :
    let s := asked 2 0x3C00 0x4200
    s.rstIn = false ∧ s.reqValid = true ∧ decodeRequest ⟨s.reqOp, s.reqA, s.reqB⟩ = .ok (.add 0x3C00 0x4200) := by decide

theorem witness_PlacedWordIsWhatTheNextStepRuns :
    decodeTableWord 88 0x100000000000000004800 = some (.decode 0x4800) := by decide

theorem witness_IdleCycleGivesNoResponse : State.reset.rstIn = false ∧ State.reset.reqValid = false := by decide

theorem witness_ResetCycleDropsTheRequest :
    let s := { asked 2 0x3C00 0x4200 with rstIn := true }
    s.rstIn = true ∧ s.reqValid = true := by decide

theorem witness_ReservedSelectIsRefused :
    let s := asked 3 0 0
    s.rstIn = false ∧ s.reqValid = true ∧ s.reqOp = 0b11#2 := by decide

theorem witness_SameRequestSameResponse :
    let s := asked 1 0x4800 0
    let t := { asked 1 0x4800 0 with rspValid := true, rspR := 7, freeCount := 3 }
    s ≠ t ∧ s.rstIn = false ∧ t.rstIn = false ∧ s.reqValid = true ∧ t.reqValid = true ∧
    s.reqOp = t.reqOp ∧ s.reqA = t.reqA ∧ s.reqB = t.reqB ∧ s.reqOp ≠ 0b11#2 := by decide

theorem witness_ResponsesComeInRequestOrder :
    let r : Request := ⟨0, 0x3FF8000000000000, 0⟩
    let q : Request := ⟨2, 0x3C00, 0x4200⟩
    let s := { State.reset.present r with upcoming := [Drive.ofRequest q] }
    s.presenting r [q] ∧ (∀ p ∈ [r, q], p.wellFormed = true) ∧ [r, q][1]? = some q := by
  exact ⟨⟨rfl, rfl, rfl, rfl⟩, by decide, rfl⟩

theorem witness_ResponsePortStaysLegal :
    (asked 0 0x3FF8000000000000 0).portLegal = true ∧
    (nextOf (asked 0 0x3FF8000000000000 0)).isSome = true := by decide

theorem witness_DecodeAndEncodeAgree :
    (Instr.add 0xFFFF 0x8000).wellFormed = true ∧
    decodeWord 0x0FFFF3FF8000000000000#82 = .ok (.encode 0x3FF8000000000000) ∧
    decodeWord 0x1FFFFFFFFFFFFFFFF4800#82 = .ok (.decode 0x4800) ∧
    decodeWord 0x24200FFFFFFFFFFFF3C00#82 = .ok (.add 0x3C00 0x4200) := by decide

theorem witness_DecoderFollowsTheOpcodeTable :
    (opcodeRows.map (OpcodeRow.matches · 0x24200000000000000FFFF#82)) = [false, false, true] ∧
    (opcodeRows.map (OpcodeRow.matches · 0x300000000000000000000#82)) = [false, false, false] := by decide

theorem witness_UnusedOperandBitsAreIgnored :
    (0x14800#64).toNat % 2 ^ 16 = (0xFFFF4800#64).toNat % 2 ^ 16 := by decide

theorem witness_PatternOrderIsValueOrder :
    (isFinite 0x07FF = true ∧ isFinite 0x0800 = true ∧ signOf 0x07FF = 0#1 ∧ signOf 0x0800 = 0#1) ∧
    (exponentOf 0x8FFF).toNat ≤ 1 := by decide

theorem witness_EncodeOfNaNInfinityZero :
    (f64Exponent 0x7FF0000000000001 = 2047 ∧ f64Fraction 0x7FF0000000000001 ≠ 0) ∧
    (f64Exponent 0xFFF0000000000000 = 2047 ∧ f64Fraction 0xFFF0000000000000 = 0) ∧
    (f64Exponent 0x8000000000000000 = 0 ∧ f64Fraction 0x8000000000000000 = 0) := by decide

theorem witness_EncodeBelowTheSmallestNormal :
    f64IsFinite 0x3F8FFFFFFFFFFFFF = true ∧ f64Magnitude 0x3F8FFFFFFFFFFFFF < 2 ^ 1068 := by decide +kernel

theorem witness_EncodeSaturatesFrom256 :
    f64IsFinite 0xC070000000000000 = true ∧ f64IsZero 0xC070000000000000 = false ∧
    15 ≤ (f64Exponent 0xC070000000000000 : Int) - 1023 + 7 := by decide

/-- The threshold 255.96875 itself, and the greatest operand below it. -/
theorem witness_EncodeOverflowThreshold :
    (f64IsFinite 0x406FFF0000000000 = true ∧ f64Magnitude 0x406FFF0000000000 = 8191 * 2 ^ 1069) ∧
    (f64IsFinite 0x406FFEFFFFFFFFFF = true ∧ f64Magnitude 0x406FFEFFFFFFFFFF < 8191 * 2 ^ 1069) := by decide +kernel

/-- The lowest value of the first binade, and a value of the last that carries. -/
theorem witness_EncodeInANormalBinade :
    (f64IsFinite 0x3F90000000000000 = true ∧ 2 ^ (1067 + 1) ≤ f64Magnitude 0x3F90000000000000 ∧
      f64Magnitude 0x3F90000000000000 < 2 ^ (1068 + 1)) ∧
    (f64IsFinite 0x406FFF0000000000 = true ∧ 2 ^ (1067 + 14) ≤ f64Magnitude 0x406FFF0000000000 ∧
      f64Magnitude 0x406FFF0000000000 < 2 ^ (1068 + 14)) := by decide +kernel

/-- The largest value below the overflow threshold, both ends of the clamp band, and a value in it; a finite pattern to compare with. -/
theorem witness_EncodeIsNearestButOnTheClampBand :
    (f64IsFinite 0x406FFEFFFFFFFFFF = true ∧ f64Magnitude 0x406FFEFFFFFFFFFF < 8191 * 2 ^ 1069) ∧
    f64Magnitude 0x3F8FFE0000000000 ≤ 4095 * 2 ^ 1056 ∧ 2 ^ 1068 ≤ f64Magnitude 0x3F90000000000000 ∧
    (f64IsFinite 0x3F8FFE0000000001 = true ∧ 4095 * 2 ^ 1056 < f64Magnitude 0x3F8FFE0000000001 ∧
      f64Magnitude 0x3F8FFE0000000001 < 2 ^ 1068 ∧ f64Magnitude 0x3F8FFE0000000001 < 8191 * 2 ^ 1069) ∧
    isFinite 0x77FF = true := by decide +kernel

theorem witness_EncodeIsMonotone :
    f64IsFinite 0xC070000000000000 = true ∧ f64IsFinite 0x3F8FFFFFFFFFFFFF = true ∧
    f64Value 0xC070000000000000 ≤ f64Value 0x3F8FFFFFFFFFFFFF := by decide +kernel

theorem witness_EncodeRespectsSign : f64IsNaN 0x7FF0000000000000 = false := by decide

theorem witness_DecodeOfZeroAndInfinity :
    (exponentOf 0x8000 = 0#4 ∧ fractionOf 0x8000 = 0#11) ∧ (exponentOf 0x7800 = 15#4 ∧ fractionOf 0x7800 = 0#11) := by decide

theorem witness_DecodeOfNaNIsOneNaN : isNaN 0x7801 = true ∧ isNaN 0xFFFF = true := by decide

theorem witness_DecodeIsExact : isFinite 0x8001 = true ∧ isFinite 0x77FF = true := by decide

theorem witness_EncodeAfterDecodeGivesThePatternBack : isNaN 0xF800 = false ∧ isNaN 0xF801 = true := by decide

theorem witness_DecodeAfterEncodeIsIdentityOnRepresentables :
    f64IsNaN 0x3FF8000000000000 = false ∧ f64IsFinite 0x3FF8000000000000 = true ∧
    f64Value 0x3FF8000000000000 = sefValue 0x3C00 * sefUnit := by decide +kernel

theorem witness_AddOfNaN : isNaN 0x7C05 = true ∨ isNaN 0x0000 = true := by decide

theorem witness_AddOfInfinities :
    (isInf 0x7800 = true ∧ isInf 0xF800 = true ∧ signOf 0x7800 ≠ signOf 0xF800 ∧ isNaN 0x7800 = false ∧ isNaN 0xF800 = false) ∧
    (isInf 0x77FF = false ∧ isNaN 0x77FF = false) := by decide

theorem witness_AddOfAFirstZero : isZero 0x8000 = true ∧ isFinite 0xF7FF = true := by decide

theorem witness_AddOfASecondZero : isFinite 0x0001 = true ∧ isZero 0x0001 = false ∧ isZero 0x8000 = true := by decide

/-- A NaN; an infinity with a finite operand; finite operands that cancel, that overflow, and that do not. -/
theorem witness_AddIsCorrectlyRounded :
    isNaN 0x7801 = true ∧ (isNaN 0x7800 = false ∧ isNaN 0x3800 = false ∧ isInf 0x7800 = true) ∧
    (isFinite 0x5C00 = true ∧ isFinite 0xDC00 = true ∧ isZero 0x5C00 = false ∧ isZero 0xDC00 = false ∧
      exactSum 0x5C00 0xDC00 = 0) ∧
    (isFinite 0x77FF = true ∧ isZero 0x77FF = false ∧ exactSum 0x77FF 0x77FF ≠ 0 ∧ exactSum 0x5C00 0x77FF ≠ 0) := by decide

theorem witness_AddOfZeroIsIdentity :
    (isNaN 0xF800 = false ∧ (0xF800 : Pattern16) ≠ 0x8000 ∧ (0xF800 : Pattern16) ≠ 0x0000) ∧ isNaN 0x7FFF = true := by decide

theorem witness_CancellationIsPlusZero : isFinite 0x8001 = true ∧ isZero 0x8001 = false := by decide

/-- The overflow threshold itself, and the greatest sum below it. -/
theorem witness_AddSaturates :
    (isFinite 0x77FF = true ∧ isFinite 0x1000 = true ∧ 33550336 ≤ (exactSum 0x77FF 0x1000).natAbs) ∧
    (isFinite 0x0FFF = true ∧ 33546240 < (exactSum 0x77FF 0x0FFF).natAbs ∧ (exactSum 0x77FF 0x0FFF).natAbs < 33550336) := by
  decide

theorem witness_AddUnderflowsGradually :
    isFinite 0x0800 = true ∧ isFinite 0x8001 = true ∧ exactSum 0x0800 0x8001 ≠ 0 ∧ (exactSum 0x0800 0x8001).natAbs < 2048 := by decide

theorem witness_AddIsExactWhenRepresentable :
    isFinite 0x3C00 = true ∧ isFinite 0x4200 = true ∧ isFinite 0x4800 = true ∧ exactSum 0x3C00 0x4200 = sefValue 0x4800 := by decide

/-- A NaN result; exact cancellation; and a sum that is neither. -/
theorem witness_AddSignSymmetry :
    isNaN (addPatterns 0x7800 0xF800) = true ∧
    (isFinite 0x5C00 = true ∧ isFinite 0xDC00 = true ∧ isZero 0x5C00 = false ∧ isZero 0xDC00 = false ∧
      sefValue 0x5C00 = - sefValue 0xDC00) ∧
    (isNaN (addPatterns 0x0000 0x8000) = false ∧ isZero 0x0000 = true) := by decide

theorem witness_OnlyTheCanonicalNaNIsProduced :
    isNaN (addPatterns 0xFFFF 0x3800) = true ∧ isNaN (encodeF64 0xFFF8000000000001) = true := by decide

theorem witness_AdderSignalsStayInRange :
    isFinite 0x77FF = true ∧ isFinite 0x8001 = true ∧ isZero 0x77FF = false ∧ isZero 0x8001 = false := by decide

/-- A final exponent of 1, and a cancellation. -/
theorem witness_LowestBinadeIsExact :
    isFinite 0x0800 = true ∧ isFinite 0x8001 = true ∧ isZero 0x0800 = false ∧ isZero 0x8001 = false ∧
    (roundGRS (normalised 0x0800 0x8001)).x = 1 ∧ (roundGRS (normalised 0x0001 0x8001)).m = 0 := by decide

theorem witness_StickySurvivesLaterShifts : (0xFFF00 : Nat) < 2 ^ 64 := by decide

theorem witness_BinaryStringIsRead : fromBinaryString "0 1001 00000000000".toList = .ok 0x4800 := by decide

theorem witness_HexOutputReadsBack : isHexOutput 0x3C00 "0x3c00".toList = true := by decide

end Sys2Proof.Tests
end

section
/-! The class of a pattern by the table of R58, and the sign flip. -/

namespace Sys2Proof.Machine

/-! Flipping bit 15 touches neither field the class reads. -/

@[simp] theorem exponentOf_negPattern (p : Pattern16) : exponentOf (negPattern p) = exponentOf p := by
  have low_bits : (0x8000#16).extractLsb' 11 4 = 0#4 := by decide
  rw [exponentOf, negPattern, BitVec.extractLsb'_xor, low_bits, BitVec.xor_zero, exponentOf]

@[simp] theorem fractionOf_negPattern (p : Pattern16) : fractionOf (negPattern p) = fractionOf p := by
  have low_bits : (0x8000#16).extractLsb' 0 11 = 0#11 := by decide
  rw [fractionOf, negPattern, BitVec.extractLsb'_xor, low_bits, BitVec.xor_zero, fractionOf]

/-- Classification reads exponent and fraction only (R58). -/
theorem classOf_congr {p q : Pattern16} (he : exponentOf p = exponentOf q) (hf : fractionOf p = fractionOf q) :
    classOf p = classOf q := by
  rw [classOf, classOf, he, hf]

@[simp] theorem classOf_negPattern (p : Pattern16) : classOf (negPattern p) = classOf p :=
  classOf_congr (exponentOf_negPattern p) (fractionOf_negPattern p)

/-- Every pattern stands in one row of the table, and has the class of that row (R58). -/
theorem classOf_cases (p : Pattern16) :
    ((exponentOf p).toNat = 0 ∧ (fractionOf p).toNat = 0 ∧ classOf p = .zero) ∨
    ((exponentOf p).toNat = 0 ∧ (fractionOf p).toNat ≠ 0 ∧ classOf p = .subnormal) ∨
    (1 ≤ (exponentOf p).toNat ∧ (exponentOf p).toNat ≤ 14 ∧ classOf p = .normal) ∨
    ((exponentOf p).toNat = 15 ∧ (fractionOf p).toNat = 0 ∧ classOf p = .infinity) ∨
    ((exponentOf p).toNat = 15 ∧ (fractionOf p).toNat ≠ 0 ∧ classOf p = .nan) := by
  have hlt : (exponentOf p).toNat < 16 := (exponentOf p).isLt
  simp only [classOf, ← BitVec.toNat_inj, BitVec.reduceToNat]
  split_ifs with he hf he15 hf
  · exact .inl ⟨he, hf, rfl⟩
  · exact .inr (.inl ⟨he, hf, rfl⟩)
  · exact .inr (.inr (.inr (.inl ⟨he15, hf, rfl⟩)))
  · exact .inr (.inr (.inr (.inr ⟨he15, hf, rfl⟩)))
  · exact .inr (.inr (.inl ⟨by omega, by omega, rfl⟩))

/-- The table of R58 read by class. The rows exclude one another, so the row a pattern stands in decides all five. -/
theorem classOf_iff (p : Pattern16) :
    (classOf p = .zero ↔ (exponentOf p).toNat = 0 ∧ (fractionOf p).toNat = 0) ∧
    (classOf p = .subnormal ↔ (exponentOf p).toNat = 0 ∧ (fractionOf p).toNat ≠ 0) ∧
    (classOf p = .normal ↔ 1 ≤ (exponentOf p).toNat ∧ (exponentOf p).toNat ≤ 14) ∧
    (classOf p = .infinity ↔ (exponentOf p).toNat = 15 ∧ (fractionOf p).toNat = 0) ∧
    (classOf p = .nan ↔ (exponentOf p).toNat = 15 ∧ (fractionOf p).toNat ≠ 0) := by
  rcases classOf_cases p with ⟨he, hf, hc⟩ | ⟨he, hf, hc⟩ | ⟨hlo, hhi, hc⟩ | ⟨he, hf, hc⟩ | ⟨he, hf, hc⟩
  · simp [hc, he, hf]
  · simp [hc, he, hf]
  · simp only [hc, reduceCtorEq, true_iff, false_iff]
    omega
  · simp [hc, he, hf]
  · simp [hc, he, hf]

/-- `0x7801` is a NaN of sign 0 and fraction 1 (R58, R60). -/
theorem canonicalNaN_fields : classOf 0x7801#16 = .nan ∧ signOf 0x7801#16 = 0#1 ∧ fractionOf 0x7801#16 = 1#11 := by
  decide

/-- Settles O17: the row a pattern stands in decides each class, and the sign flip keeps both fields. -/
theorem classFollowsTheTable : Obligations.ClassFollowsTheTable := by
  refine ⟨canonicalNaN_fields, fun p => ?_⟩
  obtain ⟨hzero, hsubnormal, hnormal, hinfinity, hnan⟩ := classOf_iff p
  exact ⟨hzero, hsubnormal, hnormal, hinfinity, hnan, classOf_negPattern p⟩

end Sys2Proof.Machine
end

section
/-! ENCODE at the ends of its range: the operands that are no finite nonzero number, and saturation (R82 to R84, R88). -/

namespace Sys2Proof.Machine

/-! The patterns whose exponent and fraction are fixed, as words. -/

theorem infinityOf_eq_ite (s : BitVec 1) : infinityOf s = if s = 0#1 then 0x7800#16 else 0xF800#16 := by
  rcases bit_cases s with rfl | rfl
  · rfl
  · rfl

theorem zeroOf_eq_ite (s : BitVec 1) : zeroOf s = if s = 0#1 then 0x0000#16 else 0x8000#16 := by
  rcases bit_cases s with rfl | rfl
  · rfl
  · rfl

/-! The top exponent, the part of the case split of R90 that `encodeF64_of_normal` leaves out. -/

theorem encodeF64_of_nan (x : F64) (he : f64Exponent x = 2047) (hf : f64Fraction x ≠ 0) :
    encodeF64 x = canonicalNaN := by
  simp [encodeF64, f64IsNaN, he, hf]

theorem encodeF64_of_infinity (x : F64) (he : f64Exponent x = 2047) (hf : f64Fraction x = 0) :
    encodeF64 x = infinityOf (f64Sign x) := by
  simp [encodeF64, f64IsNaN, f64IsInf, he, hf]

/-- Settles O21: each operand class has its own branch of ENCODE. -/
theorem encodeOfNaNInfinityZero : Obligations.EncodeOfNaNInfinityZero := by
  refine fun x => ⟨fun he hf => ?_, fun he hf => ?_, fun he _ => ?_⟩
  · exact encodeF64_of_nan x he hf
  · rw [encodeF64_of_infinity x he hf, infinityOf_eq_ite]
  · rw [encodeF64_of_exponent_zero x he, zeroOf_eq_ite]

/-! The exponent field locates the magnitude between two powers of two (R70, R85). -/

theorem f64Magnitude_of_exponent_ne_zero (x : F64) (h : f64Exponent x ≠ 0) :
    f64Magnitude x = (2 ^ 52 + f64Fraction x) * 2 ^ (f64Exponent x - 1) := by
  rw [f64Magnitude, if_neg h]

theorem f64Magnitude_of_exponent_eq_zero (x : F64) (h : f64Exponent x = 0) : f64Magnitude x = f64Fraction x := by
  rw [f64Magnitude, if_pos h]

theorem le_f64Magnitude (x : F64) (h : f64Exponent x ≠ 0) : 2 ^ (51 + f64Exponent x) ≤ f64Magnitude x := by
  have split_power : 51 + f64Exponent x = 52 + (f64Exponent x - 1) := by omega
  rw [f64Magnitude_of_exponent_ne_zero x h, split_power, Nat.pow_add]
  exact Nat.mul_le_mul_right _ (Nat.le_add_right _ _)

theorem f64Magnitude_lt (x : F64) : f64Magnitude x < 2 ^ (52 + f64Exponent x) := by
  have hf := f64Fraction_lt x
  by_cases h : f64Exponent x = 0
  · rwa [f64Magnitude_of_exponent_eq_zero x h, h]
  · have split_power : 52 + f64Exponent x = 53 + (f64Exponent x - 1) := by omega
    rw [f64Magnitude_of_exponent_ne_zero x h, split_power, Nat.pow_add]
    exact Nat.mul_lt_mul_of_pos_right (by omega) (Nat.two_pow_pos _)

/-- The magnitude reaches the lowest value of the binade of exponent field `k` exactly when the exponent field does. -/
theorem two_pow_le_f64Magnitude_iff (x : F64) {k : Nat} (hk : 1 ≤ k) :
    2 ^ (51 + k) ≤ f64Magnitude x ↔ k ≤ f64Exponent x := by
  constructor
  · intro h
    have hlt : 51 + k < 52 + f64Exponent x :=
      (Nat.pow_lt_pow_iff_right Nat.one_lt_two).mp (h.trans_lt (f64Magnitude_lt x))
    omega
  · intro h
    calc 2 ^ (51 + k) ≤ 2 ^ (51 + f64Exponent x) := Nat.pow_le_pow_right Nat.two_pos (by omega)
      _ ≤ f64Magnitude x := le_f64Magnitude x (by omega)

/-- `256` is the lowest value of the binade of exponent field 1031, which is `exp_bits = 15` (R86, R88). -/
theorem f64Magnitude_ge_256_iff (x : F64) : 256 * 2 ^ 1074 ≤ f64Magnitude x ↔ 1031 ≤ f64Exponent x := by
  have lowest : 256 * 2 ^ 1074 = 2 ^ (51 + 1031) := by
    rw [show 51 + 1031 = 8 + 1074 from rfl, Nat.pow_add]
  rw [lowest, two_pow_le_f64Magnitude_iff x (by omega)]

theorem encodeF64_of_exponent_ge (x : F64) (hge : 1031 ≤ f64Exponent x) (hfin : f64Exponent x ≠ 2047) :
    encodeF64 x = infinityOf (f64Sign x) := by
  rw [encodeF64_of_normal x (by omega) hfin, encodeFinite_of_ge _ _ _ hge]

/-- Settles O23: `exp_bits >= 15` is exponent field 1031 or more, both as a magnitude and as the saturating branch. -/
theorem encodeSaturatesFrom256 : Obligations.EncodeSaturatesFrom256 := by
  intro x hfin _
  have expBits_ge_iff : 15 ≤ (f64Exponent x : Int) - 1023 + 7 ↔ 1031 ≤ f64Exponent x := by omega
  have hne : f64Exponent x ≠ 2047 := by simpa [f64IsFinite] using hfin
  rw [expBits_ge_iff, f64Magnitude_ge_256_iff, ← infinityOf_eq_ite]
  exact ⟨Iff.rfl, fun hge => encodeF64_of_exponent_ge x hge hne⟩

end Sys2Proof.Machine
end

section
/-! DECODE of the zeros, infinities and NaNs, and ENCODE of every decoded value (R102 to R106, R110). -/

namespace Sys2Proof.Machine

/-! The patterns with an all-zeros or all-ones exponent, beside `decodePattern_of_normal` and `decodePattern_of_subnormal`. -/

theorem decodePattern_of_zero (p : Pattern16) (he : exponentOf p = 0#4) (hf : fractionOf p = 0#11) :
    decodePattern p = packF64 (signOf p) 0 0 := by
  have hn : ¬ isNaN p = true := fun h => ((isNaN_iff p).1 h).2 hf
  have hi : ¬ isInf p = true := fun h => absurd (he.symm.trans ((isInf_iff p).1 h).1) (by decide)
  rw [decodePattern, if_neg hn, if_neg hi, if_pos ((isZero_iff p).2 ⟨he, hf⟩)]

theorem decodePattern_of_infinity (p : Pattern16) (he : exponentOf p = 15#4) (hf : fractionOf p = 0#11) :
    decodePattern p = packF64 (signOf p) 0x7FF 0 := by
  have hn : ¬ isNaN p = true := fun h => ((isNaN_iff p).1 h).2 hf
  rw [decodePattern, if_neg hn, if_pos ((isInf_iff p).2 ⟨he, hf⟩)]

theorem decodePattern_of_nan (p : Pattern16) (h : isNaN p = true) : decodePattern p = Config.decNan := by
  rw [decodePattern, if_pos h]

/-! The two binary64 results as words. -/

theorem packF64_zero_eq_ite (s : BitVec 1) :
    packF64 s 0 0 = if s = 0#1 then 0x0000000000000000#64 else 0x8000000000000000#64 := by
  rcases bit_cases s with rfl | rfl
  · rfl
  · rfl

theorem packF64_infinity_eq_ite (s : BitVec 1) :
    packF64 s 0x7FF 0 = if s = 0#1 then 0x7FF0000000000000#64 else 0xFFF0000000000000#64 := by
  rcases bit_cases s with rfl | rfl
  · rfl
  · rfl

/-- Settles O29: zeros and infinities have their own branches of DECODE, which pack the sign with fixed fields. -/
theorem decodeOfZeroAndInfinity : Obligations.DecodeOfZeroAndInfinity := by
  refine fun p => ⟨fun he hf => ?_, fun he hf => ?_⟩
  · rw [decodePattern_of_zero p he hf, packF64_zero_eq_ite]
  · rw [decodePattern_of_infinity p he hf, packF64_infinity_eq_ite]

/-! The fields of a decoded subnormal and of a decoded normal (R103, R104). -/

/-- The fraction below the leading 1 fits the 52 bits it is shifted into. -/
theorem sub_leading_mul_lt {f : Nat} (hpos : f ≠ 0) (hlt : f < 2 ^ 11) :
    (f - 2 ^ f.log2) * 2 ^ (52 - f.log2) < 2 ^ 52 := by
  have hk : f.log2 < 11 := (Nat.log2_lt hpos).2 hlt
  have hrest : f - 2 ^ f.log2 < 2 ^ f.log2 := by
    have hf : f < 2 ^ (f.log2 + 1) := Nat.lt_log2_self
    rw [Nat.pow_succ] at hf
    omega
  calc (f - 2 ^ f.log2) * 2 ^ (52 - f.log2) < 2 ^ f.log2 * 2 ^ (52 - f.log2) :=
        Nat.mul_lt_mul_of_pos_right hrest (Nat.two_pow_pos _)
    _ = 2 ^ 52 := by rw [← Nat.pow_add, Nat.add_sub_of_le (by omega)]

@[simp] theorem f64Sign_decodeSubnormal (s : BitVec 1) (f : Nat) : f64Sign (decodeSubnormal s f) = s :=
  f64Sign_packF64 _ _ _

theorem f64Exponent_decodeSubnormal (s : BitVec 1) {f : Nat} (hpos : f ≠ 0) (hlt : f < 2 ^ 11) :
    f64Exponent (decodeSubnormal s f) = 1006 + f.log2 := by
  have hk : f.log2 < 11 := (Nat.log2_lt hpos).2 hlt
  rw [decodeSubnormal, f64Exponent_packF64, Nat.mod_eq_of_lt (by omega)]

/-- The 53-bit significand of a decoded subnormal is its fraction shifted up, so that the leading 1 is the implicit bit. -/
theorem significand_decodeSubnormal (s : BitVec 1) {f : Nat} (hpos : f ≠ 0) (hlt : f < 2 ^ 11) :
    2 ^ 52 + f64Fraction (decodeSubnormal s f) = f * 2 ^ (52 - f.log2) := by
  have hk : f.log2 < 11 := (Nat.log2_lt hpos).2 hlt
  rw [decodeSubnormal, f64Fraction_packF64, Nat.shiftLeft_eq, Nat.mod_eq_of_lt (sub_leading_mul_lt hpos hlt)]
  calc 2 ^ 52 + (f - 2 ^ f.log2) * 2 ^ (52 - f.log2)
      = 2 ^ f.log2 * 2 ^ (52 - f.log2) + (f - 2 ^ f.log2) * 2 ^ (52 - f.log2) := by
        rw [← Nat.pow_add, Nat.add_sub_of_le (by omega)]
    _ = f * 2 ^ (52 - f.log2) := by rw [← Nat.add_mul, Nat.add_sub_of_le (Nat.log2_self_le hpos)]

@[simp] theorem f64Sign_decodeNormal (s : BitVec 1) (e f : Nat) : f64Sign (decodeNormal s e f) = s :=
  f64Sign_packF64 _ _ _

theorem f64Exponent_decodeNormal (s : BitVec 1) {e : Nat} (f : Nat) (he : e < 15) :
    f64Exponent (decodeNormal s e f) = e + 1016 := by
  rw [decodeNormal, f64Exponent_packF64, Nat.mod_eq_of_lt (by omega)]

theorem f64Fraction_decodeNormal (s : BitVec 1) (e : Nat) {f : Nat} (hlt : f < 2 ^ 11) :
    f64Fraction (decodeNormal s e f) = f * 2 ^ 41 := by
  rw [decodeNormal, f64Fraction_packF64, Nat.shiftLeft_eq, Nat.mod_eq_of_lt (by omega)]

/-! ENCODE of a decoded value: nothing is lost to rounding, since DECODE only shifted zeros in. -/

/-- Rounding an exact multiple gives the quotient (R17). -/
theorem rne_mul_two_pow (q d : Nat) : rne (q * 2 ^ d) d = q := by
  have hhalf : 0 < 2 ^ (d - 1) := Nat.two_pow_pos _
  rw [rne, Nat.shiftRight_eq_div_pow, Nat.mul_div_cancel _ (Nat.two_pow_pos d), Nat.mul_mod_left]
  exact if_neg (by omega)

theorem encodeF64_decodeSubnormal (s : BitVec 1) {f : Nat} (hpos : f ≠ 0) (hlt : f < 2 ^ 11) :
    encodeF64 (decodeSubnormal s f) = packNat s 0 f := by
  have hk : f.log2 < 11 := (Nat.log2_lt hpos).2 hlt
  have hexp := f64Exponent_decodeSubnormal s hpos hlt
  have hshift : 1058 - (1006 + f.log2) = 52 - f.log2 := by omega
  rw [encodeF64_of_normal _ (by omega) (by omega), encodeFinite_of_le _ _ _ (by omega), hexp, hshift,
    significand_decodeSubnormal s hpos hlt, rne_mul_two_pow, if_neg (by omega), min_eq_left (by omega),
    f64Sign_decodeSubnormal]

theorem encodeF64_decodeNormal (s : BitVec 1) {e f : Nat} (hpos : 1 ≤ e) (he : e < 15) (hlt : f < 2 ^ 11) :
    encodeF64 (decodeNormal s e f) = packNat s e f := by
  have hexp := f64Exponent_decodeNormal s f he
  rw [encodeF64_of_normal _ (by omega) (by omega), encodeFinite_of_between _ _ _ (by omega) (by omega), hexp,
    f64Fraction_decodeNormal s e hlt, f64Sign_decodeNormal, encodeNormal, rne_mul_two_pow, Nat.add_sub_cancel]
  exact if_neg (by simp only [Config.fracMax]; omega)

/-! A pattern is packed from its own fields (R55, R56). -/

theorem packNat_eq_self {p : Pattern16} {e f : Nat} (he : exponentOf p = BitVec.ofNat 4 e)
    (hf : fractionOf p = BitVec.ofNat 11 f) : packNat (signOf p) e f = p :=
  pattern_ext (by simp) (by simp [he]) (by simp [hf])

/-- R110 for the patterns that are no NaN, by the row of R58's table the pattern stands in. -/
theorem encodeF64_decodePattern (p : Pattern16) (h : isNaN p = false) : encodeF64 (decodePattern p) = p := by
  have hlt : (fractionOf p).toNat < 2 ^ 11 := (fractionOf p).isLt
  by_cases he0 : exponentOf p = 0#4
  · by_cases hf0 : fractionOf p = 0#11
    · rw [decodePattern_of_zero p he0 hf0, encodeF64_of_exponent_zero _ (f64Exponent_packF64 _ _ _), f64Sign_packF64]
      exact packNat_eq_self he0 hf0
    · have hpos : (fractionOf p).toNat ≠ 0 := fun hz => hf0 (BitVec.eq_of_toNat_eq hz)
      rw [decodePattern_of_subnormal p he0 hf0, encodeF64_decodeSubnormal _ hpos hlt]
      exact packNat_eq_self he0 (by simp)
  · by_cases he15 : exponentOf p = 15#4
    · have hf0 : fractionOf p = 0#11 := by simpa [isNaN, he15] using h
      rw [decodePattern_of_infinity p he15 hf0,
        encodeF64_of_infinity _ (f64Exponent_packF64 _ _ _) (f64Fraction_packF64 _ _ _), f64Sign_packF64]
      exact packNat_eq_self he15 hf0
    · have hpos : (exponentOf p).toNat ≠ 0 := fun hz => he0 (BitVec.eq_of_toNat_eq hz)
      have hne : (exponentOf p).toNat ≠ 15 := fun hz => he15 (BitVec.eq_of_toNat_eq hz)
      have hbound : (exponentOf p).toNat < 16 := (exponentOf p).isLt
      rw [decodePattern_of_normal p he0 he15, encodeF64_decodeNormal _ (by omega) (by omega) hlt]
      exact packNat_eq_self (by simp) (by simp)

/-- `DEC_NAN` is a NaN whatever its sign and payload, so ENCODE gives the canonical NaN for it (R82, R106). -/
theorem encodeF64_decNan : encodeF64 Config.decNan = canonicalNaN := by
  obtain ⟨he, hf⟩ : f64Exponent Config.decNan = 2047 ∧ f64Fraction Config.decNan ≠ 0 := by
    simpa [f64IsNaN] using f64IsNaN_decNan
  exact encodeF64_of_nan _ he hf

/-- Settles O32: DECODE is exact, so ENCODE undoes it on every pattern but the NaNs, which all decode to `DEC_NAN`. -/
theorem encodeAfterDecodeGivesThePatternBack : Obligations.EncodeAfterDecodeGivesThePatternBack := by
  refine fun p => ⟨encodeF64_decodePattern p, fun h => ?_⟩
  have hcanon : encodeF64 (decodePattern p) = 0x7801#16 := by
    rw [decodePattern_of_nan p h, encodeF64_decNan]
    rfl
  exact ⟨hcanon, by decide, by rw [hcanon, eq_comm]⟩

end Sys2Proof.Machine
end

section
/-! The binary strings: the characters `toBinaryString` writes, and the length by which `fromBinaryString` decides
(42_codec_binary_string.md R116 to R119). -/

namespace Sys2Proof.Machine

/-! What `toBinaryString` writes (R116). -/

@[simp] theorem length_toBinaryString (p : Pattern16) : (toBinaryString p).length = 16 := by
  rw [toBinaryString, List.length_map, List.length_range]

theorem getElem?_toBinaryString (p : Pattern16) {i : Nat} (hi : i < 16) :
    (toBinaryString p)[i]? = some (bitChar (p.getLsbD (15 - i))) := by
  rw [toBinaryString, List.getElem?_map, List.getElem?_range hi, Option.map_some]

/-- Settles O52: character `i` is the character of bit `15 - i`. -/
theorem binaryStringSpellsThePattern : Obligations.BinaryStringSpellsThePattern := by
  refine fun p => ⟨length_toBinaryString p, fun i hi => ?_⟩
  rw [getElem?_toBinaryString p hi, bitChar, BitVec.testBit_toNat]

/-! What `fromBinaryString` answers, by the length of the filtered string (R117, R119). -/

/-- The filter of R118 as the rule words it. -/
theorem binaryDigits_eq_filter (s : BinString) : binaryDigits s = s.filter (fun c => c = '0' ∨ c = '1') :=
  List.filter_congr fun c _ => by simp [isBinaryDigit, Bool.decide_or, beq_eq_decide]

theorem fromBinaryString_of_length {s : BinString} (h : (binaryDigits s).length = 16) :
    fromBinaryString s = .ok (BitVec.ofNat 16 (binaryValue (binaryDigits s))) := if_pos h

theorem fromBinaryString_of_length_ne {s : BinString} (h : (binaryDigits s).length ≠ 16) :
    fromBinaryString s = .error .formatError := if_neg h

/-- Settles O53: the length of the filtered string alone decides between a pattern and the error. -/
theorem formatErrorExactlyOnWrongLength : Obligations.FormatErrorExactlyOnWrongLength := by
  intro s
  rw [← binaryDigits_eq_filter]
  by_cases h : (binaryDigits s).length = 16
  · simp [fromBinaryString_of_length h, h]
  · simp [fromBinaryString_of_length_ne h, h]

end Sys2Proof.Machine
end

section
/-! The dispatch of ADD before the mantissa path: NaN, infinity and a second zero (43_adder.md R134, R135, R137). -/

namespace Sys2Proof.Machine

/-! A finite pattern is no NaN and no infinity, and a zero is finite (R59). -/

theorem isFinite_iff (p : Pattern16) : isFinite p = true ↔ exponentOf p ≠ 15#4 := bne_iff_ne

theorem isNaN_of_isFinite {p : Pattern16} (h : isFinite p = true) : isNaN p = false :=
  Bool.eq_false_iff.2 fun hn => (isFinite_iff p).1 h ((isNaN_iff p).1 hn).1

theorem isInf_of_isFinite {p : Pattern16} (h : isFinite p = true) : isInf p = false :=
  Bool.eq_false_iff.2 fun hi => (isFinite_iff p).1 h ((isInf_iff p).1 hi).1

theorem isFinite_of_isZero {p : Pattern16} (h : isZero p = true) : isFinite p = true := by
  rw [isFinite_iff, ((isZero_iff p).1 h).1]
  decide

/-- The sign bit alone tells infinities apart, so two of one sign are identical (R135). -/
theorem eq_of_isInf_of_signOf_eq {p q : Pattern16} (hp : isInf p = true) (hq : isInf q = true)
    (hs : signOf p = signOf q) : p = q := by
  obtain ⟨hpe, hpf⟩ := (isInf_iff p).1 hp
  obtain ⟨hqe, hqf⟩ := (isInf_iff q).1 hq
  exact pattern_ext hs (hpe.trans hqe.symm) (hpf.trans hqf.symm)

/-! ADD by the rule of the dispatch that fires. -/

/-- Dispatch 1 (R134). -/
theorem addPatterns_of_nan {a b : Pattern16} (h : isNaN a = true ∨ isNaN b = true) :
    addPatterns a b = canonicalNaN := by
  rw [addPatterns, if_pos (by simpa using h)]

/-- Past dispatch 1, an infinite operand decides the sum (R135). -/
theorem addPatterns_of_infinite {a b : Pattern16} (ha : isNaN a = false) (hb : isNaN b = false)
    (h : isInf a = true ∨ isInf b = true) :
    addPatterns a b = if isInf a = true ∧ isInf b = true ∧ signOf a ≠ signOf b then canonicalNaN
      else if isInf a = true then a else b := by
  rw [addPatterns, if_neg (by simp [ha, hb]), if_pos (by simpa using h)]
  simp only [Bool.and_eq_true, bne_iff_ne, and_assoc]

/-- Past dispatch 1 to 3, a second zero returns the first operand (R137). -/
theorem addPatterns_of_second_zero {a b : Pattern16} (ha : isFinite a = true) (hza : isZero a = false)
    (hzb : isZero b = true) : addPatterns a b = a := by
  have hb : isFinite b = true := isFinite_of_isZero hzb
  rw [addPatterns, if_neg (by simp [isNaN_of_isFinite ha, isNaN_of_isFinite hb]),
    if_neg (by simp [isInf_of_isFinite ha, isInf_of_isFinite hb]), if_neg (by simp [hza]), if_pos hzb]

/-- Settles O36: with an infinite operand ADD reads only which operands are infinite and whether the signs differ. -/
theorem addOfInfinities : Obligations.AddOfInfinities := by
  refine fun a b ha hb => ⟨fun hia hib hs => ?_, fun hia hib hs => ?_, fun hia hib => ?_, fun hia hib => ?_⟩
  · rw [addPatterns_of_infinite ha hb (.inl hia), if_pos ⟨hia, hib, hs⟩]
    rfl
  · have hsum : addPatterns a b = a := by
      rw [addPatterns_of_infinite ha hb (.inl hia), if_neg fun h => h.2.2 hs, if_pos hia]
    exact ⟨hsum, hsum.trans (eq_of_isInf_of_signOf_eq hia hib hs)⟩
  · rw [addPatterns_of_infinite ha hb (.inl hia), if_neg (by simp [hib]), if_pos hia]
  · rw [addPatterns_of_infinite ha hb (.inr hib), if_neg (by simp [hia]), if_neg (by simp [hia])]

/-- Settles O35: the NaN test comes first, so the other operand is not looked at. -/
theorem addOfNaN : Obligations.AddOfNaN :=
  fun _ _ h => addPatterns_of_nan h

/-- Settles O38: a finite nonzero first operand and a zero pass dispatch 1 to 3. -/
theorem addOfASecondZero : Obligations.AddOfASecondZero :=
  fun _ _ ha hza hzb => addPatterns_of_second_zero ha hza hzb

end Sys2Proof.Machine
end

section
/-! The response to a request that names an operation, as a function of the request alone (R48, R184). -/

namespace Sys2Proof.Machine

theorem decodeRequest_of_op_ne_reserved (r : Request) (h : r.op ≠ reservedSelect) : ∃ i, decodeRequest r = .ok i := by
  have selects : ∀ op : BitVec 2, op = 0b00#2 ∨ op = 0b01#2 ∨ op = 0b10#2 ∨ op = reservedSelect := by decide
  rcases selects r.op with hop | hop | hop | hop
  · exact ⟨.encode r.a, by simp [decodeRequest, hop]⟩
  · exact ⟨.decode (patternOfA r.a), by simp [decodeRequest, hop]⟩
  · exact ⟨.add (patternOfA r.a) r.b, by simp [decodeRequest, hop]⟩
  · exact absurd hop h

theorem step_of_decoded_request {s : State} {i : Instr} (hr : s.rstIn = false) (hv : s.reqValid = true)
    (hi : decodeRequest s.request = .ok i) : step s = .next (s.advance.respond (resultOf i)) := by
  have hwork : s.work = .run i := by rw [work_of_request s hr hv, hi]
  rw [step, hwork]
  exact exec_eq_respond i s.advance

/-- Settles O8: both states present one request, which decodes to one operation, and each step delivers its result. -/
theorem sameRequestSameResponse : Obligations.SameRequestSameResponse := by
  intro s t hrs hrt hvs hvt hop ha hb hne
  have same_request : t.request = s.request := by simp only [State.request, hop, ha, hb]
  obtain ⟨i, hi⟩ := decodeRequest_of_op_ne_reserved s.request hne
  exact ⟨_, _, step_of_decoded_request hrs hvs hi, step_of_decoded_request hrt hvt (same_request ▸ hi), rfl, rfl, rfl⟩

end Sys2Proof.Machine
end

section
/-! Comparing and combining mantissas shifted with sticky (R16, R142 to R147). -/

namespace Sys2Proof.Machine

/-- The sticky bit keeps a value on its side of every even multiple of the unit it is shifted to. -/
theorem le_srs_iff (n : Nat) {h d : Nat} (hd : d < 64) (he : h % 2 = 0) : h ≤ srs n d ↔ h * 2 ^ d ≤ n := by
  rw [srs_eq n hd, ← Nat.le_div_iff_mul_le (Nat.two_pow_pos d)]
  split
  · rfl
  · omega

theorem srs_le_iff (n : Nat) {h d : Nat} (hd : d < 64) (he : h % 2 = 0) : srs n d ≤ h ↔ n ≤ h * 2 ^ d := by
  rw [srs_eq n hd, Nat.mul_comm h, le_mul_iff_div (Nat.two_pow_pos d)]
  split
  · omega
  · omega

theorem srs_lt_iff (n : Nat) {h d : Nat} (hd : d < 64) (he : h % 2 = 0) : srs n d < h ↔ n < h * 2 ^ d := by
  rw [← not_le, le_srs_iff n hd he, not_le]

theorem lt_srs_iff (n : Nat) {h d : Nat} (hd : d < 64) (he : h % 2 = 0) : h < srs n d ↔ h * 2 ^ d < n := by
  rw [← not_le, srs_le_iff n hd he, not_le]

/-- Two shifts with sticky are one by the sum of the amounts (R16, R144). -/
theorem srs_srs (n : Nat) {d e : Nat} (hde : d + e < 64) : srs (srs n d) e = srs n (d + e) := by
  have hquot : n / 2 ^ (d + e) = n / 2 ^ d / 2 ^ e := by rw [Nat.pow_add, Nat.div_div_eq_div_mul]
  have hrem : n % 2 ^ (d + e) = n % 2 ^ d + 2 ^ d * (n / 2 ^ d % 2 ^ e) := by rw [Nat.pow_add, Nat.mod_mul]
  by_cases h0 : n % 2 ^ d = 0
  · have hrem_iff : n % 2 ^ (d + e) = 0 ↔ n / 2 ^ d % 2 ^ e = 0 := by simp [hrem, h0]
    simp only [srs_exact (show d < 64 by omega) h0, srs_eq _ (show e < 64 by omega), srs_eq _ hde, hquot, hrem_iff]
  · rw [srs_sticky (m := n) (d := d + e) hde (by omega), srs_sticky (by omega) h0, hquot]
    cases e with
    | zero => simp
    | succ k =>
      have halve (m : Nat) : m / 2 ^ (k + 1) = m / 2 / 2 ^ k := by rw [Nat.pow_succ', Nat.div_div_eq_div_mul]
      have hodd : (2 * (n / 2 ^ d / 2) + 1) % 2 ^ (k + 1) ≠ 0 := by
        rw [Nat.pow_succ', Nat.mod_mul]; omega
      have hhalf : (2 * (n / 2 ^ d / 2) + 1) / 2 = n / 2 ^ d / 2 := by omega
      rw [srs_sticky (by omega) hodd, halve, halve, hhalf]

/-- Zeros shifted in are shifted out again. -/
theorem srs_mul_two_pow (m : Nat) {k d : Nat} (hkd : k + d < 64) : srs (m * 2 ^ k) (k + d) = srs m d := by
  rw [← srs_srs _ hkd, srs_exact (by omega) (Nat.mul_mod_left _ _), Nat.mul_div_cancel _ (Nat.two_pow_pos k)]

end Sys2Proof.Machine
end

section
/-! ADD of finite patterns against the exact sum: what the combine step and the normalisation hold (R142 to R149). -/

namespace Sys2Proof.Machine

/-! Magnitudes with a sign. -/

theorem signed_natAbs (s : BitVec 1) (m : Nat) : (signed s m).natAbs = m := by
  unfold signed
  split
  · omega
  · omega

theorem signBit_signed (s : BitVec 1) {m : Nat} (hm : m ≠ 0) : signBit (signed s m) = s := by
  rcases bit_cases s with rfl | rfl
  · exact if_neg (by simp [signed])
  · exact if_pos (by simp [signed]; omega)

theorem signBit_mul_two_pow (t : Int) (k : Nat) : signBit (t * 2 ^ k) = signBit t := by
  have hneg : t * 2 ^ k < 0 ↔ t < 0 := by
    rw [← not_le, mul_nonneg_iff_of_pos_right (by positivity), not_le]
  simp only [signBit, hneg]

theorem signed_mul (s : BitVec 1) (m k : Nat) : signed s (m * k) = signed s m * k := by
  unfold signed
  split
  · push_cast; ring
  · push_cast; ring

theorem signed_add (s : BitVec 1) (m n : Nat) : signed s m + signed s n = signed s (m + n) := by
  unfold signed
  split
  · omega
  · omega

theorem signed_sub (s : BitVec 1) {m n : Nat} (h : n ≤ m) : signed s m - signed s n = signed s (m - n) := by
  unfold signed
  split
  · omega
  · omega

/-- A magnitude with the other sign bit is the negative. -/
theorem signed_of_ne {s s' : BitVec 1} (h : s ≠ s') (m : Nat) : signed s' m = - signed s m := by
  rcases bit_cases s with rfl | rfl
  · have hs' : s' = 1#1 := (bit_cases s').resolve_left h.symm
    simp [hs', signed]
  · have hs' : s' = 0#1 := (bit_cases s').resolve_right h.symm
    simp [hs', signed]

/-! S4 and S5. -/

/-- An even multiple of the unit loses nothing in the shift and stays even. -/
theorem srs_of_two_pow_succ_dvd {m d : Nat} (hd : d < 64) (h : 2 ^ (d + 1) ∣ m) :
    ∃ k, k % 2 = 0 ∧ m = k * 2 ^ d ∧ srs m d = k := by
  obtain ⟨j, rfl⟩ := h
  have hj : 2 ^ (d + 1) * j = 2 * j * 2 ^ d := by rw [Nat.pow_succ]; ring
  refine ⟨2 * j, by omega, hj, ?_⟩
  rw [hj, srs_exact hd (Nat.mul_mod_left _ _), Nat.mul_div_cancel _ (Nat.two_pow_pos d)]

/-- Of two magnitudes one of which loses nothing and is even after the shift, the sum is shifted as the two are (R142, R145). -/
theorem srs_add_srs {m n d : Nat} (hd : d < 64) (h : 2 ^ (d + 1) ∣ m ∨ 2 ^ (d + 1) ∣ n) :
    srs m d + srs n d = srs (m + n) d := by
  have even_first {m n : Nat} (h : 2 ^ (d + 1) ∣ m) : srs m d + srs n d = srs (m + n) d := by
    obtain ⟨k, heven, rfl, hk⟩ := srs_of_two_pow_succ_dvd hd h
    rw [hk, add_srs k n hd heven]
  rcases h with h | h
  · exact even_first h
  · rw [Nat.add_comm, even_first h, Nat.add_comm]

/-- The greater of two such magnitudes stays the greater, and the difference is shifted as the two are (R142, R146). -/
theorem srs_sub_srs {m n d : Nat} (hd : d < 64) (h : 2 ^ (d + 1) ∣ m ∨ 2 ^ (d + 1) ∣ n) (hlt : n < m) :
    srs n d < srs m d ∧ srs m d - srs n d = srs (m - n) d := by
  have hpos : srs (m - n) d ≠ 0 := srs_pos (by omega)
  suffices hsub : srs m d - srs n d = srs (m - n) d from ⟨by omega, hsub⟩
  rcases h with h | h
  · obtain ⟨k, heven, rfl, hk⟩ := srs_of_two_pow_succ_dvd hd h
    rw [hk, sub_srs k n hd heven hlt.le]
  · have hsum := srs_add_srs hd (.inl h : 2 ^ (d + 1) ∣ n ∨ 2 ^ (d + 1) ∣ m - n)
    rw [Nat.add_sub_of_le (by omega)] at hsum
    omega

/-- The combine step on two such magnitudes: it answers the sum with its sign, shifted as the operands are (R145, R146). -/
theorem combine_srs (sa sb : BitVec 1) (x : Nat) {m n d : Nat} (hd : d < 64)
    (h : 2 ^ (d + 1) ∣ m ∨ 2 ^ (d + 1) ∣ n) :
    ∃ s v, combine sa sb ⟨x, srs m d, srs n d⟩ = ⟨s, x, srs v d⟩ ∧ signed s v = signed sa m + signed sb n := by
  by_cases hs : sa = sb
  · subst hs
    refine ⟨sa, m + n, ?_, (signed_add sa m n).symm⟩
    rw [combine, if_pos rfl, srs_add_srs hd h]
  · rcases Nat.lt_trichotomy m n with hmn | rfl | hmn
    · obtain ⟨hlt, hsub⟩ := srs_sub_srs hd h.symm hmn
      refine ⟨sb, n - m, ?_, ?_⟩
      · rw [combine, if_neg hs, if_neg (by simpa using hlt.le), if_pos hlt, hsub]
      · rw [signed_of_ne (Ne.symm hs), ← signed_sub sb hmn.le]; ring
    · refine ⟨0#1, 0, ?_, ?_⟩
      · rw [combine, if_neg hs, if_neg (by simp), if_neg (by simp), srs_zero]
      · rw [signed_of_ne hs, add_neg_cancel]; rfl
    · obtain ⟨hlt, hsub⟩ := srs_sub_srs hd h hmn
      refine ⟨sa, m - n, ?_, ?_⟩
      · rw [combine, if_neg hs, if_pos hlt, hsub]
      · rw [signed_of_ne hs, ← signed_sub sa hmn.le]; ring

/-- The mantissa of an operand is its magnitude in the unit of its exponent, eight guard bits below (R62, R141). -/
theorem widened_mul_two_pow (p : Pattern16) : widened p * 2 ^ (effExponent p - 1) = sefMagnitude p * 2 ^ 8 := by
  rw [widened_eq, sefMagnitude]; ring

/-- A magnitude with its eight guard bits is an even multiple of the unit of its exponent. -/
theorem two_pow_effExponent_dvd (p : Pattern16) : 2 ^ (effExponent p - 1 + 1) ∣ sefMagnitude p * 2 ^ 8 := by
  refine ⟨sig12 p * 2 ^ 7, ?_⟩
  rw [sefMagnitude, Nat.pow_succ]; ring

/-- The alignment shifter brings both magnitudes to the unit of the larger exponent (R142). -/
theorem align_eq_srs {a b : Pattern16} (ha : isFinite a = true) (hb : isFinite b = true) :
    align (effExponent a) (widened a) (effExponent b) (widened b) =
      ⟨max (effExponent a) (effExponent b),
        srs (sefMagnitude a * 2 ^ 8) (max (effExponent a) (effExponent b) - 1),
        srs (sefMagnitude b * 2 ^ 8) (max (effExponent a) (effExponent b) - 1)⟩ := by
  have shift_to {p : Pattern16} {x : Nat} (hx : effExponent p ≤ x) (hx14 : x ≤ 14) :
      srs (sefMagnitude p * 2 ^ 8) (x - 1) = srs (widened p) (x - effExponent p) := by
    have hpos := effExponent_pos p
    have hsplit : x - 1 = effExponent p - 1 + (x - effExponent p) := by omega
    rw [← widened_mul_two_pow, hsplit, srs_mul_two_pow _ (by omega)]
  have ha14 := effExponent_le_of_finite a ha
  have hb14 := effExponent_le_of_finite b hb
  rcases align_cases (effExponent a) (widened a) (effExponent b) (widened b) with ⟨hle, he⟩ | ⟨hlt, he⟩
  · rw [he, max_eq_left hle, shift_to le_rfl ha14, shift_to hle ha14, Nat.sub_self, srs_zero_shift]
  · rw [he, max_eq_right hlt.le, shift_to hlt.le hb14, shift_to le_rfl hb14, Nat.sub_self, srs_zero_shift]

/-- The combined mantissa is the exact sum with eight guard bits, shifted with sticky to the unit of the larger exponent, and its
sign is the sum's (R142 to R146). -/
theorem combined_eq_srs {a b : Pattern16} (ha : isFinite a = true) (hb : isFinite b = true) :
    ∃ s x, combined a b = ⟨s, x, srs ((exactSum a b).natAbs * 2 ^ 8) (x - 1)⟩ ∧ 1 ≤ x ∧ x ≤ 14 ∧
      (exactSum a b ≠ 0 → s = signBit (exactSum a b)) := by
  have hpos := effExponent_pos a
  have ha14 := effExponent_le_of_finite a ha
  have hb14 := effExponent_le_of_finite b hb
  have even_larger : 2 ^ (max (effExponent a) (effExponent b) - 1 + 1) ∣ sefMagnitude a * 2 ^ 8 ∨
      2 ^ (max (effExponent a) (effExponent b) - 1 + 1) ∣ sefMagnitude b * 2 ^ 8 := by
    rcases le_total (effExponent b) (effExponent a) with hle | hle
    · rw [max_eq_left hle]; exact .inl (two_pow_effExponent_dvd a)
    · rw [max_eq_right hle]; exact .inr (two_pow_effExponent_dvd b)
  have hx14 : max (effExponent a) (effExponent b) ≤ 14 := max_le ha14 hb14
  obtain ⟨s, v, hc, hv⟩ := combine_srs (signOf a) (signOf b) (max (effExponent a) (effExponent b))
    (by omega : max (effExponent a) (effExponent b) - 1 < 64) even_larger
  have hsum : signed s v = exactSum a b * 2 ^ 8 := by
    rw [hv, signed_mul, signed_mul, exactSum, sefValue, sefValue]; push_cast; ring
  have hvabs : v = (exactSum a b).natAbs * 2 ^ 8 := by rw [← signed_natAbs s v, hsum]; omega
  refine ⟨s, max (effExponent a) (effExponent b), ?_, le_max_of_le_left hpos, hx14, fun hne => ?_⟩
  · rw [combined, align_eq_srs ha hb, hc, hvabs]
  · rw [← signBit_signed s (m := v) (by omega), hsum, signBit_mul_two_pow]

/-- Each aligned mantissa has at most 20 bits (R131). -/
theorem align_lt {a b : Pattern16} (ha : isFinite a = true) (hb : isFinite b = true) :
    (align (effExponent a) (widened a) (effExponent b) (widened b)).ma < 2 ^ 20 ∧
    (align (effExponent a) (widened a) (effExponent b) (widened b)).mb < 2 ^ 20 := by
  have ha14 := effExponent_le_of_finite a ha
  have hb14 := effExponent_le_of_finite b hb
  have hwa := widened_lt a
  have hwb := widened_lt b
  rcases align_cases (effExponent a) (widened a) (effExponent b) (widened b) with ⟨_, he⟩ | ⟨_, he⟩
  · rw [he]; exact ⟨hwa, (srs_le (by omega)).trans_lt hwb⟩
  · rw [he]; exact ⟨(srs_le (by omega)).trans_lt hwa, hwb⟩

/-- The combined mantissa has at most 21 bits (R131). -/
theorem combined_lt {a b : Pattern16} (ha : isFinite a = true) (hb : isFinite b = true) :
    (combined a b).m < 2 ^ 21 := by
  obtain ⟨hma, hmb⟩ := align_lt ha hb
  rcases combine_cases (signOf a) (signOf b) (align (effExponent a) (widened a) (effExponent b) (widened b)) with
    ⟨_, he⟩ | ⟨_, _, he⟩ | ⟨_, _, he⟩ | ⟨_, _, he⟩
  all_goals
    rw [combined, he]
    dsimp only
    omega

/-! S6. -/

/-- Right normalisation keeps a mantissa the shift of its value; when it shifts, the mantissa fills 21 bits (R147). -/
theorem rightNormalise_srs (s : BitVec 1) (v : Nat) {x : Nat} (hx : 1 ≤ x) (hx14 : x ≤ 14) :
    (srs v (x - 1) < 2 ^ 20 ∧ rightNormalise ⟨s, x, srs v (x - 1)⟩ = ⟨s, x, srs v (x - 1)⟩) ∨
    (2 ^ 20 ≤ srs v (x - 1) ∧ rightNormalise ⟨s, x, srs v (x - 1)⟩ = ⟨s, x + 1, srs v x⟩) := by
  rcases rightNormalise_cases ⟨s, x, srs v (x - 1)⟩ with h | ⟨hge, he⟩
  · exact .inl h
  · have hshift : srs (srs v (x - 1)) 1 = srs v x := by rw [srs_srs v (by omega), Nat.sub_add_cancel hx]
    exact .inr ⟨hge, by rw [he, hshift]⟩

/-- Left normalisation leaves a mantissa that has its leading bit at 19 (R148). -/
theorem leftNormalise_of_ge (t : Interim) (hx : 1 ≤ t.x) (hlt : t.m < 2 ^ 20) (hge : 2 ^ 19 ≤ t.m) :
    leftNormalise t = t := by
  obtain ⟨n, _, he, hbound, _⟩ := leftNormalise_spec t hx hlt
  have hn : n = 0 := by
    by_contra hne
    have htwo : 2 ^ 1 ≤ 2 ^ n := Nat.pow_le_pow_right Nat.two_pos (by omega)
    have := Nat.mul_le_mul hge htwo
    omega
  rw [he, hn, Nat.pow_zero, Nat.mul_one, Nat.sub_zero]

/-- After right normalisation the mantissa is still the exact sum shifted with sticky, and it has at most 20 bits. The exponent is
15 only for a sum of 256 or more (R147). -/
theorem rightNormalise_combined {a b : Pattern16} (ha : isFinite a = true) (hb : isFinite b = true) :
    ∃ s x, rightNormalise (combined a b) = ⟨s, x, srs ((exactSum a b).natAbs * 2 ^ 8) (x - 1)⟩ ∧
      srs ((exactSum a b).natAbs * 2 ^ 8) (x - 1) < 2 ^ 20 ∧ 1 ≤ x ∧
      (x ≤ 14 ∨ x = 15 ∧ 2 ^ 25 ≤ (exactSum a b).natAbs) ∧
      (exactSum a b ≠ 0 → s = signBit (exactSum a b)) := by
  have hlt := rightNormalise_lt _ (combined_lt ha hb)
  obtain ⟨s, x, hc, hx, hx14, hs⟩ := combined_eq_srs ha hb
  rw [hc] at hlt ⊢
  rcases rightNormalise_srs s ((exactSum a b).natAbs * 2 ^ 8) hx hx14 with ⟨_, he⟩ | ⟨hge, he⟩
  · rw [he] at hlt ⊢
    exact ⟨s, x, rfl, hlt, hx, .inl hx14, hs⟩
  · rw [he] at hlt ⊢
    refine ⟨s, x + 1, rfl, hlt, by omega, ?_, hs⟩
    rcases Nat.lt_or_eq_of_le hx14 with hx13 | rfl
    · exact .inl hx13
    · rw [le_srs_iff _ (by omega) (by omega)] at hge
      exact .inr ⟨rfl, by omega⟩

/-- The normalised mantissa by its exponent: above 14 only for a sum of 256 or more, at 14 the exact sum shifted with sticky, and
below 14 only for a sum below 128 (R147 to R149). -/
theorem normalised_cases {a b : Pattern16} (ha : isFinite a = true) (hb : isFinite b = true) :
    ∃ s x m, normalised a b = ⟨s, x, m⟩ ∧ m < 2 ^ 20 ∧ (exactSum a b ≠ 0 → s = signBit (exactSum a b)) ∧
      ((x = 15 ∧ 2 ^ 19 ≤ m ∧ 2 ^ 25 ≤ (exactSum a b).natAbs) ∨
       (x = 14 ∧ m = srs ((exactSum a b).natAbs * 2 ^ 8) 13) ∨
       (x ≤ 13 ∧ (exactSum a b).natAbs < 2 ^ 24)) := by
  obtain ⟨s, x, hr, hm, hx, hx15, hs⟩ := rightNormalise_combined ha hb
  rw [normalised, hr]
  by_cases hge : 2 ^ 19 ≤ srs ((exactSum a b).natAbs * 2 ^ 8) (x - 1)
  · refine ⟨s, x, _, leftNormalise_of_ge _ hx hm hge, hm, hs, ?_⟩
    rcases hx15 with hx14 | ⟨hx15, hbig⟩
    · rcases Nat.lt_or_eq_of_le hx14 with hx13 | rfl
      · rw [srs_lt_iff _ (by omega) (by omega)] at hm
        have hpow : 2 ^ (x - 1) ≤ 2 ^ 12 := Nat.pow_le_pow_right Nat.two_pos (by omega)
        exact .inr (.inr ⟨by omega, by omega⟩)
      · exact .inr (.inl ⟨rfl, rfl⟩)
    · exact .inl ⟨hx15, hge, hbig⟩
  · obtain ⟨n, hn, he, hlt, _⟩ := leftNormalise_spec ⟨s, x, srs ((exactSum a b).natAbs * 2 ^ 8) (x - 1)⟩ hx hm
    refine ⟨s, x - n, _, he, hlt, hs, ?_⟩
    rw [le_srs_iff _ (by omega) (by omega), not_le] at hge
    rcases hx15 with hx14 | ⟨rfl, hbig⟩
    · have hpow : 2 ^ (x - 1) ≤ 2 ^ 13 := Nat.pow_le_pow_right Nat.two_pos (by omega)
      by_cases h14 : x - n = 14
      · obtain ⟨rfl, rfl⟩ : x = 14 ∧ n = 0 := by omega
        exact .inr (.inl ⟨rfl, by simp⟩)
      · exact .inr (.inr ⟨by omega, by omega⟩)
    · omega

end Sys2Proof.Machine
end

section
/-! Saturation of ADD on finite patterns (R177), by the exponent of the normalised mantissa (R150 to R156). -/

namespace Sys2Proof.Machine

/-! S7 and S8. -/

theorem isInf_packNat_of_lt (s : BitVec 1) {e : Nat} (f : Nat) (he : e < 15) : isInf (packNat s e f) = false := by
  refine Bool.eq_false_iff.2 fun h => ?_
  have hexp := congrArg BitVec.toNat ((isInf_iff _).1 h).1
  rw [exponentOf_packNat, BitVec.toNat_ofNat, Nat.mod_eq_of_lt (by omega)] at hexp
  exact absurd hexp (by simp; omega)

theorem isInf_infinityOf (s : BitVec 1) : isInf (infinityOf s) = true :=
  (isInf_iff _).2 ⟨by simp [infinityOf], by simp [infinityOf]⟩

@[simp] theorem signOf_infinityOf (s : BitVec 1) : signOf (infinityOf s) = s := signOf_packNat s _ _

theorem finalise_of_overflow (s : BitVec 1) {x m : Nat} (hm : m ≠ 0) (hx : 15 ≤ x) :
    finalise ⟨s, x, m⟩ = infinityOf s := by
  rcases finalise_cases ⟨s, x, m⟩ with ⟨h, _⟩ | ⟨_, _, he⟩ | ⟨_, h, _⟩ | ⟨_, h, _⟩
  · exact absurd h hm
  · exact he
  · dsimp only at h; omega
  · dsimp only at h; omega

theorem isInf_finalise_of_lt (t : Interim) (hx : t.x < 15) : isInf (finalise t) = false := by
  rcases finalise_cases t with ⟨_, he⟩ | ⟨_, h, _⟩ | ⟨_, _, _, he⟩ | ⟨_, _, _, he⟩
  · rw [he]; exact isInf_packNat_of_lt _ _ (by omega)
  · omega
  · rw [he]; exact isInf_packNat_of_lt _ _ (by omega)
  · rw [he]; exact isInf_packNat_of_lt _ _ hx

/-- The largest finite pattern of a sign (R64). -/
theorem finalise_largest (s : BitVec 1) : finalise ⟨s, 14, 4095⟩ = if s = 0#1 then 0x77FF#16 else 0xF7FF#16 := by
  rcases bit_cases s with rfl | rfl
  · rfl
  · rfl

/-- From half a unit above the largest significand on the rounding carries into the exponent, the tie to even (R151, R152). -/
theorem roundGRS_of_ge (s : BitVec 1) (x : Nat) {m : Nat} (hm : m < 2 ^ 20) (hge : 8191 * 2 ^ 7 ≤ m) :
    roundGRS ⟨s, x, m⟩ = ⟨s, x + 1, 2048⟩ := by
  obtain ⟨q, ⟨hup, _, htie⟩, _, ⟨hq, _⟩ | ⟨_, he⟩⟩ := roundGRS_cases ⟨s, x, m⟩ hm
  · dsimp only at hup htie
    omega
  · exact he

/-- Below that the rounding keeps the exponent. -/
theorem roundGRS_of_lt (s : BitVec 1) (x : Nat) {m : Nat} (hlt : m < 8191 * 2 ^ 7) :
    ∃ q, IsNearestEven m (2 ^ 8) q ∧ roundGRS ⟨s, x, m⟩ = ⟨s, x, q⟩ := by
  obtain ⟨q, hq, _, ⟨_, he⟩ | ⟨hcarry, _⟩⟩ := roundGRS_cases ⟨s, x, m⟩ (by dsimp only; omega)
  · exact ⟨q, hq, he⟩
  · obtain ⟨_, hdown, _⟩ := hq
    dsimp only at hdown
    omega

/-- Exponent 15 overflows whether the rounding carries or not. -/
theorem finalise_roundGRS_of_fifteen (s : BitVec 1) {m : Nat} (hm : m < 2 ^ 20) (hge : 2 ^ 19 ≤ m) :
    finalise (roundGRS ⟨s, 15, m⟩) = infinityOf s := by
  by_cases hcarry : 8191 * 2 ^ 7 ≤ m
  · rw [roundGRS_of_ge s 15 hm hcarry, finalise_of_overflow s (by omega) (by omega)]
  · obtain ⟨q, ⟨hup, _⟩, he⟩ := roundGRS_of_lt s 15 (by omega : m < 8191 * 2 ^ 7)
    rw [he, finalise_of_overflow s (by omega) (by omega)]

/-- Exponent 14 overflows by the carry. -/
theorem finalise_roundGRS_of_fourteen (s : BitVec 1) {m : Nat} (hm : m < 2 ^ 20) (hge : 8191 * 2 ^ 7 ≤ m) :
    finalise (roundGRS ⟨s, 14, m⟩) = infinityOf s := by
  rw [roundGRS_of_ge s 14 hm hge, finalise_of_overflow s (by omega) (by omega)]

/-- Just above the largest significand the rounding goes down to it. -/
theorem finalise_roundGRS_above_largest (s : BitVec 1) {m : Nat} (hgt : 4095 * 2 ^ 8 < m) (hlt : m < 8191 * 2 ^ 7) :
    finalise (roundGRS ⟨s, 14, m⟩) = if s = 0#1 then 0x77FF#16 else 0xF7FF#16 := by
  obtain ⟨q, ⟨hup, hdown, _⟩, he⟩ := roundGRS_of_lt s 14 hlt
  have hq : q = 4095 := by omega
  rw [he, hq, finalise_largest]

/-- Without a carry, exponent 14 does not overflow, and below it a carry is not enough. -/
theorem isInf_finalise_roundGRS (s : BitVec 1) {x m : Nat} (hm : m < 2 ^ 20)
    (h : x ≤ 13 ∨ x = 14 ∧ m < 8191 * 2 ^ 7) : isInf (finalise (roundGRS ⟨s, x, m⟩)) = false := by
  by_cases hcarry : 8191 * 2 ^ 7 ≤ m
  · rw [roundGRS_of_ge s x hm hcarry]
    exact isInf_finalise_of_lt _ (by dsimp only; omega)
  · obtain ⟨q, _, he⟩ := roundGRS_of_lt s x (by omega : m < 8191 * 2 ^ 7)
    rw [he]
    exact isInf_finalise_of_lt _ (by dsimp only; omega)

/-! The dispatch on finite operands, and the bound on a single operand. -/

/-- The magnitude of a finite pattern is at most that of the largest (R64). -/
theorem sefMagnitude_le_of_finite {p : Pattern16} (h : isFinite p = true) : sefMagnitude p ≤ 33546240 := by
  have hexp := effExponent_le_of_finite p h
  have hsig := sig12_lt p
  calc sefMagnitude p ≤ 4095 * 2 ^ 13 :=
        Nat.mul_le_mul (by omega) (Nat.pow_le_pow_right Nat.two_pos (by omega))
    _ = 33546240 := by norm_num

theorem sefValue_of_isZero {p : Pattern16} (h : isZero p = true) : sefValue p = 0 := by
  obtain ⟨he, hf⟩ := (isZero_iff p).1 h
  simp [sefValue, sefMagnitude, sig12, he, hf, signed]

/-- Past dispatch 1 and 2, a first zero returns the second operand (R136). -/
theorem addPatterns_of_first_zero {a b : Pattern16} (hza : isZero a = true) (hb : isFinite b = true) :
    addPatterns a b = b := by
  have ha : isFinite a = true := isFinite_of_isZero hza
  rw [addPatterns, if_neg (by simp [isNaN_of_isFinite ha, isNaN_of_isFinite hb]),
    if_neg (by simp [isInf_of_isFinite ha, isInf_of_isFinite hb]), if_pos hza]

/-- Finite operands that are no zero take the full path (R138). -/
theorem addPatterns_of_finite {a b : Pattern16} (ha : isFinite a = true) (hb : isFinite b = true)
    (hza : isZero a = false) (hzb : isZero b = false) : addPatterns a b = addFinite a b := by
  rw [addPatterns, if_neg (by simp [isNaN_of_isFinite ha, isNaN_of_isFinite hb]),
    if_neg (by simp [isInf_of_isFinite ha, isInf_of_isFinite hb]), if_neg (by simp [hza]), if_neg (by simp [hzb])]

/-- A zero operand leaves a sum that is the other operand, so finite and at most the largest normal. -/
theorem addPatterns_with_zero {a b : Pattern16} (ha : isFinite a = true) (hb : isFinite b = true)
    (h : isZero a = true ∨ isZero b = true) :
    isInf (addPatterns a b) = false ∧ (exactSum a b).natAbs ≤ 33546240 := by
  by_cases hza : isZero a = true
  · rw [addPatterns_of_first_zero hza hb, exactSum, sefValue_of_isZero hza, zero_add, sefValue, signed_natAbs]
    exact ⟨isInf_of_isFinite hb, sefMagnitude_le_of_finite hb⟩
  · have hzb : isZero b = true := h.resolve_left hza
    rw [addPatterns_of_second_zero ha (by simpa using hza) hzb, exactSum, sefValue_of_isZero hzb, add_zero, sefValue,
      signed_natAbs]
    exact ⟨isInf_of_isFinite ha, sefMagnitude_le_of_finite ha⟩

/-- The full path from `255.96875` on: the infinity of the sum's sign (R177). -/
theorem addFinite_of_ge {a b : Pattern16} (ha : isFinite a = true) (hb : isFinite b = true)
    (hge : 33550336 ≤ (exactSum a b).natAbs) : addFinite a b = infinityOf (signBit (exactSum a b)) := by
  obtain ⟨s, x, m, hn, hm, hs, ⟨rfl, hm19, _⟩ | ⟨rfl, rfl⟩ | ⟨_, hlt⟩⟩ := normalised_cases ha hb
  · rw [addFinite, hn, finalise_roundGRS_of_fifteen s hm hm19, hs (by omega)]
  · have hcarry : 8191 * 2 ^ 7 ≤ srs ((exactSum a b).natAbs * 2 ^ 8) 13 :=
      (le_srs_iff _ (by omega) (by omega)).2 (by omega)
    rw [addFinite, hn, finalise_roundGRS_of_fourteen s hm hcarry, hs (by omega)]
  · omega

/-- The full path below `255.96875` does not overflow (R177). -/
theorem isInf_addFinite_of_lt {a b : Pattern16} (ha : isFinite a = true) (hb : isFinite b = true)
    (hlt : (exactSum a b).natAbs < 33550336) : isInf (addFinite a b) = false := by
  obtain ⟨s, x, m, hn, hm, _, ⟨_, _, hbig⟩ | ⟨rfl, rfl⟩ | ⟨hx, _⟩⟩ := normalised_cases ha hb
  · omega
  · have hnocarry : srs ((exactSum a b).natAbs * 2 ^ 8) 13 < 8191 * 2 ^ 7 :=
      (srs_lt_iff _ (by omega) (by omega)).2 (by omega)
    rw [addFinite, hn, isInf_finalise_roundGRS s hm (.inr ⟨rfl, hnocarry⟩)]
  · rw [addFinite, hn, isInf_finalise_roundGRS s hm (.inl hx)]

/-- The full path between the largest normal and `255.96875` rounds down to the largest normal of the sum's sign (R177). -/
theorem addFinite_above_largest {a b : Pattern16} (ha : isFinite a = true) (hb : isFinite b = true)
    (hgt : 33546240 < (exactSum a b).natAbs) (hlt : (exactSum a b).natAbs < 33550336) :
    addFinite a b = if 0 ≤ exactSum a b then 0x77FF#16 else 0xF7FF#16 := by
  obtain ⟨s, x, m, hn, _, hs, ⟨_, _, hbig⟩ | ⟨rfl, rfl⟩ | ⟨_, hsmall⟩⟩ := normalised_cases ha hb
  · omega
  · have hnocarry : srs ((exactSum a b).natAbs * 2 ^ 8) 13 < 8191 * 2 ^ 7 :=
      (srs_lt_iff _ (by omega) (by omega)).2 (by omega)
    have habove : 4095 * 2 ^ 8 < srs ((exactSum a b).natAbs * 2 ^ 8) 13 :=
      (lt_srs_iff _ (by omega) (by omega)).2 (by omega)
    have hsign : s = 0#1 ↔ 0 ≤ exactSum a b := by
      rw [hs (by omega), signBit]
      split
      · simpa using ‹exactSum a b < 0›
      · simpa using ‹¬ exactSum a b < 0›
    rw [addFinite, hn, finalise_roundGRS_above_largest s habove hnocarry]
    simp only [hsign]
  · omega

/-- The two examples of R177, just below the threshold and at it. -/
theorem addPatterns_saturation_examples :
    addPatterns 0x77FF#16 0x0FFF#16 = 0x77FF#16 ∧ addPatterns 0x77FF#16 0x1000#16 = 0x7800#16 := by
  decide

/-- Settles O43: with a zero operand the sum is at most the largest normal, and on the full path the exact sum lies on one side of
the threshold, where the normalised mantissa at exponent 14 rounds into the carry or does not. -/
theorem addSaturates : Obligations.AddSaturates := by
  refine ⟨fun a b ha hb => ?_, addPatterns_saturation_examples⟩
  by_cases hz : isZero a = true ∨ isZero b = true
  · obtain ⟨hinf, hle⟩ := addPatterns_with_zero ha hb hz
    rw [hinf]
    exact ⟨by simp; omega, by omega, by omega⟩
  · obtain ⟨hza, hzb⟩ : isZero a = false ∧ isZero b = false := by simpa using hz
    rw [addPatterns_of_finite ha hb hza hzb]
    refine ⟨⟨fun hinf => ?_, fun hge => ?_⟩, fun hge => ?_, addFinite_above_largest ha hb⟩
    · by_contra hlt
      rw [isInf_addFinite_of_lt ha hb (by omega)] at hinf
      cases hinf
    · rw [addFinite_of_ge ha hb hge, isInf_infinityOf]
    · rw [addFinite_of_ge ha hb hge, signOf_infinityOf]

end Sys2Proof.Machine
end

section
/-! Every operation answers, whatever the operand and the state (R192). -/

namespace Sys2Proof.Machine

/-- Settles O7: each arm of the dispatch responds with its operation's result, and a response is there and not marked illegal. -/
theorem operationsNeverFail : Obligations.OperationsNeverFail := by
  intro i s
  exact ⟨s.respond (resultOf i), exec_eq_respond i s, State.respond_rspValid s _, State.respond_rspIll s _⟩

end Sys2Proof.Machine
end

section
/-! What ENCODE, ADD and DECODE put on the response port: no NaN but the canonical one, or a decoded value, so every step keeps
the port legal (R29, R60, R108, R182). -/

namespace Sys2Proof.Machine

/-! Packed results that are no NaN. -/

theorem isFinite_packNat (s : BitVec 1) {e : Nat} (f : Nat) (he : e < 15) : isFinite (packNat s e f) = true := by
  rw [isFinite_iff, exponentOf_packNat, ne_eq, ← BitVec.toNat_inj, BitVec.toNat_ofNat, Nat.mod_eq_of_lt (by omega)]
  exact he.ne

theorem isNaN_packNat (s : BitVec 1) {e : Nat} (f : Nat) (he : e < 15) : isNaN (packNat s e f) = false :=
  isNaN_of_isFinite (isFinite_packNat s f he)

theorem isNaN_of_isInf {p : Pattern16} (h : isInf p = true) : isNaN p = false :=
  Bool.eq_false_iff.2 fun hn => ((isNaN_iff p).1 hn).2 ((isInf_iff p).1 h).2

theorem isNaN_infinityOf (s : BitVec 1) : isNaN (infinityOf s) = false := isNaN_of_isInf (isInf_infinityOf s)

theorem isNaN_zeroOf (s : BitVec 1) : isNaN (zeroOf s) = false := isNaN_packNat s 0 (by omega)

/-! ENCODE, by its paths. -/

theorem isNaN_encodeNormal (s : BitVec 1) {xb f : Nat} (hxb : xb < 15) (hf : f < 2 ^ 52) :
    isNaN (encodeNormal s xb f) = false := by
  rcases encodeNormal_cases s xb f hf with ⟨_, he⟩ | ⟨_, hlt, he⟩ | ⟨_, _, he⟩
  · rw [he, isNaN_packNat s _ hxb]
  · rw [he, isNaN_packNat s _ (by omega)]
  · rw [he, isNaN_infinityOf]

theorem isNaN_encodeFinite (s : BitVec 1) (ex : Nat) {f : Nat} (hf : f < 2 ^ 52) :
    isNaN (encodeFinite s ex f) = false := by
  rcases Nat.lt_or_ge 1016 ex with hlo | hle
  · rcases Nat.lt_or_ge ex 1031 with hhi | hge
    · rw [encodeFinite_of_between s ex f hlo (by omega), isNaN_encodeNormal s (by omega) hf]
    · rw [encodeFinite_of_ge s ex f hge, isNaN_infinityOf]
  · rw [encodeFinite_of_le s ex f hle, isNaN_packNat s _ (by omega)]

/-- ENCODE gives the canonical NaN for a NaN, and no NaN for any other operand (R82, R182). -/
theorem encodeF64_nan_cases (x : F64) : encodeF64 x = canonicalNaN ∨ isNaN (encodeF64 x) = false := by
  by_cases he0 : f64Exponent x = 0
  · exact .inr (by rw [encodeF64_of_exponent_zero x he0, isNaN_zeroOf])
  · by_cases he : f64Exponent x = 2047
    · by_cases hf : f64Fraction x = 0
      · exact .inr (by rw [encodeF64_of_infinity x he hf, isNaN_infinityOf])
      · exact .inl (encodeF64_of_nan x he hf)
    · exact .inr (by rw [encodeF64_of_normal x he0 he, isNaN_encodeFinite _ _ (f64Fraction_lt x)])

/-! ADD, by its dispatch. -/

theorem isNaN_finalise (t : Interim) : isNaN (finalise t) = false := by
  rcases finalise_cases t with ⟨_, he⟩ | ⟨_, _, he⟩ | ⟨_, _, _, he⟩ | ⟨_, hx, _, he⟩
  · rw [he, isNaN_zeroOf]
  · rw [he, isNaN_infinityOf]
  · rw [he, isNaN_packNat _ _ (by omega)]
  · rw [he, isNaN_packNat _ _ hx]

theorem isFinite_of_not_nan_not_inf {p : Pattern16} (hn : isNaN p = false) (hi : isInf p = false) :
    isFinite p = true := by
  rw [isFinite_iff]
  intro he
  by_cases hf : fractionOf p = 0#11
  · simp [(isInf_iff p).2 ⟨he, hf⟩] at hi
  · simp [(isNaN_iff p).2 ⟨he, hf⟩] at hn

/-- Finite operands by the dispatch: a zero operand returns the other one, else the full path runs (R136 to R138). -/
theorem addPatterns_finite_cases {a b : Pattern16} (ha : isFinite a = true) (hb : isFinite b = true) :
    (isZero a = true ∧ addPatterns a b = b) ∨ (isZero a = false ∧ isZero b = true ∧ addPatterns a b = a) ∨
    (isZero a = false ∧ isZero b = false ∧ addPatterns a b = addFinite a b) := by
  cases hza : isZero a with
  | true => exact .inl ⟨rfl, addPatterns_of_first_zero hza hb⟩
  | false =>
    cases hzb : isZero b with
    | true => exact .inr (.inl ⟨rfl, rfl, addPatterns_of_second_zero ha hza hzb⟩)
    | false => exact .inr (.inr ⟨rfl, rfl, addPatterns_of_finite ha hb hza hzb⟩)

/-- ADD of finite patterns is no NaN. -/
theorem isNaN_addPatterns_of_finite {a b : Pattern16} (ha : isFinite a = true) (hb : isFinite b = true) :
    isNaN (addPatterns a b) = false := by
  rcases addPatterns_finite_cases ha hb with ⟨_, he⟩ | ⟨_, _, he⟩ | ⟨_, _, he⟩
  · rw [he, isNaN_of_isFinite hb]
  · rw [he, isNaN_of_isFinite ha]
  · rw [he, addFinite, isNaN_finalise]

/-- The operands by the dispatch: a NaN among them, else an infinity, else both finite. -/
theorem operands_cases (a b : Pattern16) :
    (isNaN a = true ∨ isNaN b = true) ∨
    (isNaN a = false ∧ isNaN b = false ∧ (isInf a = true ∨ isInf b = true)) ∨
    (isFinite a = true ∧ isFinite b = true) := by
  by_cases hn : isNaN a = true ∨ isNaN b = true
  · exact .inl hn
  · obtain ⟨hna, hnb⟩ : isNaN a = false ∧ isNaN b = false := by simpa using hn
    by_cases hi : isInf a = true ∨ isInf b = true
    · exact .inr (.inl ⟨hna, hnb, hi⟩)
    · obtain ⟨hia, hib⟩ : isInf a = false ∧ isInf b = false := by simpa using hi
      exact .inr (.inr ⟨isFinite_of_not_nan_not_inf hna hia, isFinite_of_not_nan_not_inf hnb hib⟩)

/-- ADD gives the canonical NaN or no NaN (R134, R135, R182). -/
theorem addPatterns_nan_cases (a b : Pattern16) :
    addPatterns a b = canonicalNaN ∨ isNaN (addPatterns a b) = false := by
  rcases operands_cases a b with hn | ⟨hna, hnb, hi⟩ | ⟨ha, hb⟩
  · exact .inl (addPatterns_of_nan hn)
  · rw [addPatterns_of_infinite hna hnb hi]
    split_ifs
    · exact .inl rfl
    · exact .inr hna
    · exact .inr hnb
  · exact .inr (isNaN_addPatterns_of_finite ha hb)

/-! Canonical patterns on the port. -/

theorem canonical_of_nan_cases {p : Pattern16} (h : p = canonicalNaN ∨ isNaN p = false) : canonical p = true := by
  rcases h with h | h
  · simp [canonical, h]
  · simp [canonical, h]

theorem isPatternResult_zext64 {p : Pattern16} (h : canonical p = true) : isPatternResult (zext64 p) = true := by
  rw [isPatternResult, zext64_high, zext64_low, h]
  rfl

/-! Decoded values on the port, by the row of R58's table the pattern stands in. -/

/-- The rest of a subnormal's fraction is shifted up by 42 places or more (R103). -/
theorem f64Fraction_decodeSubnormal_mod (s : BitVec 1) {f : Nat} (hpos : f ≠ 0) (hlt : f < 2 ^ 11) :
    f64Fraction (decodeSubnormal s f) % 2 ^ 41 = 0 := by
  have hk : f.log2 < 11 := (Nat.log2_lt hpos).2 hlt
  have hsplit : 52 - f.log2 = 41 + (11 - f.log2) := by omega
  rw [decodeSubnormal, f64Fraction_packF64, Nat.shiftLeft_eq, Nat.mod_eq_of_lt (sub_leading_mul_lt hpos hlt), hsplit,
    Nat.pow_add, Nat.mul_left_comm]
  exact Nat.mul_mod_right _ _

theorem toNat_ne_zero {n : Nat} {v : BitVec n} (h : v ≠ 0#n) : v.toNat ≠ 0 :=
  fun h0 => h (BitVec.eq_of_toNat_eq (by simpa using h0))

theorem isDecodedResult_of_range {r : F64} (hlo : 1006 ≤ f64Exponent r) (hhi : f64Exponent r ≤ 1030)
    (hf : f64Fraction r % 2 ^ 41 = 0) : isDecodedResult r = true := by
  simp only [isDecodedResult, hlo, hhi, hf, decide_true, beq_self_eq_true, Bool.and_self, Bool.or_true]

theorem isDecodedResult_decodePattern (p : Pattern16) : isDecodedResult (decodePattern p) = true := by
  have hlt : (fractionOf p).toNat < 2 ^ 11 := (fractionOf p).isLt
  have hexp : (exponentOf p).toNat < 16 := (exponentOf p).isLt
  by_cases he0 : exponentOf p = 0#4
  · by_cases hf0 : fractionOf p = 0#11
    · rw [decodePattern_of_zero p he0 hf0]
      simp [isDecodedResult, f64IsZero]
    · have hpos := toNat_ne_zero hf0
      have hk : (fractionOf p).toNat.log2 < 11 := (Nat.log2_lt hpos).2 hlt
      have hexponent := f64Exponent_decodeSubnormal (signOf p) hpos hlt
      rw [decodePattern_of_subnormal p he0 hf0]
      exact isDecodedResult_of_range (by omega) (by omega) (f64Fraction_decodeSubnormal_mod _ hpos hlt)
  · by_cases he15 : exponentOf p = 15#4
    · by_cases hf0 : fractionOf p = 0#11
      · rw [decodePattern_of_infinity p he15 hf0]
        simp [isDecodedResult, f64IsInf]
      · rw [decodePattern_of_nan p ((isNaN_iff p).2 ⟨he15, hf0⟩), isDecodedResult, f64IsNaN_decNan]
        rfl
    · have hpos := toNat_ne_zero he0
      have hne : (exponentOf p).toNat ≠ 15 := fun h => he15 (BitVec.eq_of_toNat_eq h)
      have hexponent := f64Exponent_decodeNormal (signOf p) (fractionOf p).toNat (show (exponentOf p).toNat < 15 by omega)
      rw [decodePattern_of_normal p he0 he15]
      refine isDecodedResult_of_range (by omega) (by omega) ?_
      rw [f64Fraction_decodeNormal _ _ hlt, Nat.mul_mod_left]

/-- Every operation's result is one of the two kinds the invariant allows. -/
theorem resultOf_is_legal (i : Instr) : (isPatternResult (resultOf i) || isDecodedResult (resultOf i)) = true := by
  rw [Bool.or_eq_true]
  cases i with
  | encode x => exact .inl (isPatternResult_zext64 (canonical_of_nan_cases (encodeF64_nan_cases x)))
  | decode p => exact .inr (isDecodedResult_decodePattern p)
  | add a b => exact .inl (isPatternResult_zext64 (canonical_of_nan_cases (addPatterns_nan_cases a b)))

theorem portLegal_respond (s : State) (i : Instr) : (s.respond (resultOf i)).portLegal = true := by
  simp [State.portLegal, resultOf_is_legal i]

theorem portLegal_noResponse (s : State) : s.noResponse.portLegal = true := by
  simp [State.portLegal]

/-- Settles O10: a step responds with an operation's result, which is canonical or a decoded value, or it does not respond. -/
theorem responsePortStaysLegal : Obligations.ResponsePortStaysLegal := by
  intro s t _ hstep
  rcases step_next_cases hstep with ⟨i, _, rfl⟩ | ⟨_, rfl⟩
  · exact portLegal_respond s.advance i
  · exact portLegal_noResponse s.advance

/-- Settles O47: each of the two operations gives the canonical NaN or no NaN. -/
theorem onlyTheCanonicalNaNIsProduced : Obligations.OnlyTheCanonicalNaNIsProduced := by
  refine ⟨fun a b hn => ?_, fun x hn => ?_⟩
  · exact (addPatterns_nan_cases a b).resolve_right (by simp [hn])
  · exact (encodeF64_nan_cases x).resolve_right (by simp [hn])

end Sys2Proof.Machine
end

section
/-! One cycle: what each kind of step answers, and a sequence of requests answered one for one (R26, R30, R36, R48, R73). -/

namespace Sys2Proof.Machine

/-! Each operation as a response with its own result and frame (R80, R93, R100, R109, R130, R161). -/

theorem answeredWith_respond (s : State) (r : BitVec 64) : s.answeredWith (s.respond r) r :=
  ⟨rfl, rfl, rfl, rfl, rfl, rfl, rfl, rfl, rfl, rfl⟩

theorem exec_answeredWith (i : Instr) (s : State) : ∃ t, exec i s = .next t ∧ s.answeredWith t (resultOf i) :=
  ⟨s.respond (resultOf i), exec_eq_respond i s, answeredWith_respond s _⟩

/-- Settles O20: the result of ENCODE is its pattern with zeros above it. -/
theorem encodeWritesOnlyTheResponse : Obligations.EncodeWritesOnlyTheResponse :=
  fun x s => exec_answeredWith (.encode x) s

/-- Settles O28: the result of DECODE is the binary64 itself. -/
theorem decodeWritesOnlyTheResponse : Obligations.DecodeWritesOnlyTheResponse :=
  fun p s => exec_answeredWith (.decode p) s

/-- Settles O34: the result of ADD is its pattern with zeros above it. -/
theorem addWritesOnlyTheResponse : Obligations.AddWritesOnlyTheResponse :=
  fun a b s => exec_answeredWith (.add a b) s

/-! The kinds of work, and the step of each. -/

theorem work_of_reset {s : State} (hr : s.rstIn = true) : s.work = .reset := (work_eq_reset_iff s).2 hr

theorem work_of_idle {s : State} (hr : s.rstIn = false) (hv : s.reqValid = false) : s.work = .idle := by
  rw [State.work, hr, hv]
  rfl

theorem decodeRequest_of_reserved {r : Request} (h : r.op = reservedSelect) :
    decodeRequest r = .error .reservedOperationSelect := by
  simp [decodeRequest, h, reservedSelect]

theorem work_of_reserved {s : State} (hr : s.rstIn = false) (hv : s.reqValid = true) (hop : s.reqOp = reservedSelect) :
    s.work = .refuse := by
  rw [work_of_request s hr hv, decodeRequest_of_reserved (r := s.request) hop]

theorem step_of_reset {s : State} (hr : s.rstIn = true) : step s = .next s.advance.noResponse := by
  rw [step, work_of_reset hr]

theorem step_of_idle {s : State} (hr : s.rstIn = false) (hv : s.reqValid = false) :
    step s = .next s.advance.noResponse := by
  rw [step, work_of_idle hr hv]

theorem step_of_reserved {s : State} (hr : s.rstIn = false) (hv : s.reqValid = true) (hop : s.reqOp = reservedSelect) :
    step s = .refused (.reservedOperationSelect s.advance.answerReserved) := by
  rw [step, work_of_reserved hr hv hop]

/-! The next inputs (log 1): a change of the response port leaves them. -/

theorem inputsAfter_advance (s : State) : s.inputsAfter s.advance := by
  unfold State.inputsAfter State.advance
  cases s.upcoming with
  | nil => exact ⟨rfl, rfl, rfl⟩
  | cons d ds => exact ⟨rfl, rfl, rfl, rfl, rfl, rfl⟩

theorem inputsAfter_noResponse {s t : State} (h : s.inputsAfter t) : s.inputsAfter t.noResponse := h

theorem inputsAfter_answerReserved {s t : State} (h : s.inputsAfter t) : s.inputsAfter t.answerReserved := h

/-- Settles O1: the request on the port decides the work of the cycle. -/
theorem stepRunsTheDecodedRequest : Obligations.StepRunsTheDecodedRequest := by
  intro s i hr hv hi
  have hstep : step s = exec i s.advance := by rw [step_of_decoded_request hr hv hi, exec_eq_respond]
  exact ⟨hstep, inputsAfter_advance s, s.advance_rspValid, s.advance_rspR, s.advance_rspIll⟩

/-- Settles O3: an idle cycle moves the inputs on and shows no response. -/
theorem idleCycleGivesNoResponse : Obligations.IdleCycleGivesNoResponse :=
  fun s hr hv => ⟨_, step_of_idle hr hv, rfl, inputsAfter_noResponse (inputsAfter_advance s)⟩

/-- Settles O4: reset comes before the request. -/
theorem resetCycleDropsTheRequest : Obligations.ResetCycleDropsTheRequest :=
  fun s hr => ⟨_, step_of_reset hr, rfl, inputsAfter_noResponse (inputsAfter_advance s)⟩

/-- Settles O5: the reserved select decodes to no operation, and the refusal holds the hardware's answer. -/
theorem reservedSelectIsRefused : Obligations.ReservedSelectIsRefused :=
  fun s hr hv hop => ⟨_, step_of_reserved hr hv hop, rfl, rfl, inputsAfter_answerReserved (inputsAfter_advance s)⟩

/-- The step by its three outcomes: reset or idle, an operation, the reserved select. -/
theorem step_cases (s : State) :
    (¬ (s.rstIn = false ∧ s.reqValid = true ∧ s.reqOp = reservedSelect) ∧ ∃ t, step s = .next t) ∨
    ((s.rstIn = false ∧ s.reqValid = true ∧ s.reqOp = reservedSelect) ∧ ∃ r, step s = .refused r) := by
  cases hr : s.rstIn with
  | true => exact .inl ⟨by simp, _, step_of_reset hr⟩
  | false =>
    cases hv : s.reqValid with
    | false => exact .inl ⟨by simp, _, step_of_idle hr hv⟩
    | true =>
      by_cases hop : s.reqOp = reservedSelect
      · exact .inr ⟨⟨rfl, rfl, hop⟩, _, step_of_reserved hr hv hop⟩
      · obtain ⟨i, hi⟩ := decodeRequest_of_op_ne_reserved s.request hop
        exact .inl ⟨by simp [hop], _, step_of_decoded_request hr hv hi⟩

/-- Settles O6: only the reserved select, presented without reset, is refused, and there is no fault to raise. -/
theorem stepGoesOnUnlessReserved : Obligations.StepGoesOnUnlessReserved := by
  refine fun s => ⟨(nomatch ·), ?_⟩
  rcases step_cases s with ⟨hne, hnext⟩ | ⟨hreserved, r, hrefused⟩
  · exact ⟨fun _ => hne, fun _ => hnext⟩
  · simp [hreserved, hrefused]

/-- Settles O11. -/
theorem resetHasNoResponse : Obligations.ResetHasNoResponse := ⟨rfl, rfl⟩

/-! A word placed on the port. -/

/-- A number that decodes to an operation is a request word whose request decodes to it. -/
theorem reqWordOfNat_of_decodeTableWord {nbits w : Nat} {i : Instr} (h : decodeTableWord nbits w = some i) :
    ∃ v, reqWordOfNat nbits w = .ok v ∧ decodeRequest (requestOfWord v) = .ok i := by
  unfold decodeTableWord decodeNat at h
  cases hv : reqWordOfNat nbits w with
  | error e => rw [hv] at h; cases h
  | ok v =>
    rw [hv] at h
    dsimp only [decodeWord] at h
    cases hd : decodeRequest (requestOfWord v) with
    | error e => rw [hd] at h; cases h
    | ok j => rw [hd] at h; cases h; exact ⟨v, rfl, hd⟩

theorem withFetchWord_of_reqWordOfNat (s : State) {nbits w : Nat} {v : ReqWord} (h : reqWordOfNat nbits w = .ok v) :
    s.withFetchWord nbits w = s.present (requestOfWord v) := by
  rw [State.withFetchWord, State.presentNat, h]

/-- Settles O2: the placed request is on the port without reset, so it is the work of the cycle. -/
theorem placedWordIsWhatTheNextStepRuns : Obligations.PlacedWordIsWhatTheNextStepRuns := by
  intro s nbits w i h
  obtain ⟨v, hv, hi⟩ := reqWordOfNat_of_decodeTableWord h
  rw [withFetchWord_of_reqWordOfNat s hv, exec_eq_respond]
  exact ⟨step_of_decoded_request (s.present_rstIn _) (s.present_reqValid _) hi, s.present_upcoming _⟩

/-! A sequence of requests (R48). -/

theorem run_succ_of_step {s t : State} (h : step s = .next t) (k : Nat) : core.run (k + 1) s = core.run k t := by
  have hcore : core.step s = .next t := h
  simp only [Host.Core.run, hcore]

/-- A well-formed request on the port decodes to an operation, and the step delivers its result. -/
theorem step_of_presenting {s : State} {r : Request} {rs : List Request} (h : s.presenting r rs)
    (hwf : r.wellFormed = true) :
    ∃ i, decodeRequest r = .ok i ∧ step s = .next (s.advance.respond (resultOf i)) := by
  obtain ⟨hr, hv, hreq, _⟩ := h
  obtain ⟨i, hi⟩ := decodeRequest_of_op_ne_reserved r (by simpa [Request.wellFormed] using hwf)
  exact ⟨i, hi, step_of_decoded_request hr hv (hreq ▸ hi)⟩

/-- After the cycle of one request the next one is on the port. -/
theorem presenting_advance {s : State} {r q : Request} {rs : List Request} (h : s.presenting r (q :: rs))
    (v : BitVec 64) : (s.advance.respond v).presenting q rs := by
  obtain ⟨_, _, _, hup⟩ := h
  rw [State.advance_cons s _ _ hup]
  exact ⟨rfl, rfl, rfl, rfl⟩

/-- After the last request the port is idle, so one step later there is no response. -/
theorem step_after_last {s : State} {r : Request} (h : s.presenting r []) (v : BitVec 64) :
    ∃ t, step (s.advance.respond v) = .next t ∧ t.rspValid = false := by
  obtain ⟨_, _, _, hup⟩ := h
  rw [State.advance_nil s hup]
  exact ⟨_, step_of_idle rfl rfl, rfl⟩

/-- The response after `k + 1` steps is the result of request `k`. -/
theorem response_of_request (rs : List Request) : ∀ (r : Request) (s : State), s.presenting r rs →
    (∀ q ∈ r :: rs, q.wellFormed = true) → ∀ (k : Nat) (q : Request), (r :: rs)[k]? = some q →
    ∃ (t : State) (i : Instr), core.run (k + 1) s = .next t ∧ decodeRequest q = .ok i ∧
      t.rspValid = true ∧ t.rspIll = false ∧ t.rspR = resultOf i := by
  induction rs with
  | nil =>
    intro r s hp hwf k q hq
    obtain ⟨i, hi, hstep⟩ := step_of_presenting hp (hwf r List.mem_cons_self)
    cases k with
    | zero => cases hq; exact ⟨_, i, run_succ_of_step hstep 0, hi, rfl, rfl, rfl⟩
    | succ k => simp at hq
  | cons r' rs ih =>
    intro r s hp hwf k q hq
    obtain ⟨i, hi, hstep⟩ := step_of_presenting hp (hwf r List.mem_cons_self)
    cases k with
    | zero => cases hq; exact ⟨_, i, run_succ_of_step hstep 0, hi, rfl, rfl, rfl⟩
    | succ k =>
      rw [run_succ_of_step hstep]
      exact ih r' _ (presenting_advance hp _) (fun q' hq' => hwf q' (List.mem_cons_of_mem _ hq')) k q hq

/-- One step after the last response there is none. -/
theorem no_response_after_last (rs : List Request) : ∀ (r : Request) (s : State), s.presenting r rs →
    (∀ q ∈ r :: rs, q.wellFormed = true) → ∃ t : State, core.run (rs.length + 2) s = .next t ∧ t.rspValid = false := by
  induction rs with
  | nil =>
    intro r s hp hwf
    obtain ⟨i, _, hstep⟩ := step_of_presenting hp (hwf r List.mem_cons_self)
    obtain ⟨t, ht, hnone⟩ := step_after_last hp (resultOf i)
    exact ⟨t, by rw [List.length_nil, run_succ_of_step hstep, run_succ_of_step ht]; rfl, hnone⟩
  | cons r' rs ih =>
    intro r s hp hwf
    obtain ⟨i, _, hstep⟩ := step_of_presenting hp (hwf r List.mem_cons_self)
    obtain ⟨t, ht, hnone⟩ := ih r' _ (presenting_advance hp (resultOf i)) fun q' hq' => hwf q' (List.mem_cons_of_mem _ hq')
    exact ⟨t, by rw [List.length_cons, run_succ_of_step hstep, ht], hnone⟩

/-- Settles O9: by induction on the requests still to come, each step answers the request on the port and puts
the next one there. -/
theorem responsesComeInRequestOrder : Obligations.ResponsesComeInRequestOrder :=
  fun rs r s hp hwf => ⟨response_of_request rs r s hp hwf, no_response_after_last rs r s hp hwf⟩

end Sys2Proof.Machine
end

section
/-! The request word, its decoder and encoder, and the fields and classes of a pattern (30_encoding.md R55 to R59, R71 to R74). -/

namespace Sys2Proof.Laws

/-- A mask of a concatenation masks each part. -/
theorem append_and_append {m n : Nat} (x x' : BitVec m) (y y' : BitVec n) :
    (x ++ y) &&& (x' ++ y') = (x &&& x') ++ (y &&& y') := by
  apply BitVec.eq_of_getLsbD_eq
  intro i _
  simp only [BitVec.getLsbD_and, BitVec.getLsbD_append]
  split
  · rfl
  · rfl

/-- A concatenation is made of its two slices. -/
theorem slices_append {m n : Nat} (v : BitVec (m + n)) : v.extractLsb' n m ++ v.extractLsb' 0 n = v := by
  apply BitVec.eq_of_toNat_eq
  have hhigh : v.toNat / 2 ^ n < 2 ^ m := Nat.div_lt_of_lt_mul (v.isLt.trans_eq (by rw [Nat.add_comm m n, Nat.pow_add]))
  rw [toNat_append_eq, toNat_slice, toNat_slice, Nat.pow_zero, Nat.div_one, Nat.mod_eq_of_lt hhigh]
  exact Nat.div_add_mod' _ _

end Sys2Proof.Laws

namespace Sys2Proof

/-! The fields of the request word (R71). -/

theorem requestOfWord_word (r : Request) : requestOfWord r.word = r := by
  have hop : r.word.extractLsb' 80 2 = r.op := Laws.slice_append_top (m := 16) (n := 64) _ _ _
  have hb : r.word.extractLsb' 64 16 = r.b := Laws.slice_append_mid (n := 64) _ _ _
  have ha : r.word.extractLsb' 0 64 = r.a := Laws.slice_append_low _ _
  rw [requestOfWord, hop, hb, ha]

theorem word_requestOfWord (w : ReqWord) : (requestOfWord w).word = w := by
  have hupper : w.extractLsb' 80 2 ++ w.extractLsb' 64 16 = w.extractLsb' 64 18 := by
    have hhigh : (w.extractLsb' 64 18).extractLsb' 16 2 = w.extractLsb' 80 2 := BitVec.eq_of_toNat_eq (by
      simp only [Laws.toNat_slice]; omega)
    have hlow : (w.extractLsb' 64 18).extractLsb' 0 16 = w.extractLsb' 64 16 := BitVec.eq_of_toNat_eq (by
      simp only [Laws.toNat_slice]; omega)
    rw [← hhigh, ← hlow]
    exact Laws.slices_append (m := 2) (n := 16) _
  rw [Request.word, requestOfWord]
  dsimp only
  rw [hupper]
  exact Laws.slices_append (m := 18) (n := 64) w

/-- The decoder by the operation select (R72, R73). -/
theorem decodeRequest_cases (r : Request) :
    (r.op = 0b00#2 ∧ decodeRequest r = .ok (.encode r.a)) ∨
    (r.op = 0b01#2 ∧ decodeRequest r = .ok (.decode (patternOfA r.a))) ∨
    (r.op = 0b10#2 ∧ decodeRequest r = .ok (.add (patternOfA r.a) r.b)) ∨
    (r.op = reservedSelect ∧ decodeRequest r = .error .reservedOperationSelect) := by
  have selects : ∀ op : BitVec 2, op = 0b00#2 ∨ op = 0b01#2 ∨ op = 0b10#2 ∨ op = reservedSelect := by decide
  rcases selects r.op with hop | hop | hop | hop
  · exact .inl ⟨hop, by simp [decodeRequest, hop]⟩
  · exact .inr (.inl ⟨hop, by simp [decodeRequest, hop]⟩)
  · exact .inr (.inr (.inl ⟨hop, by simp [decodeRequest, hop]⟩))
  · exact .inr (.inr (.inr ⟨hop, Machine.decodeRequest_of_reserved hop⟩))

/-! Decode after encode (R71, R72). -/

/-- Operand A with its upper bits zero is cut back to the pattern (R28). -/
theorem patternOfA_setWidth (p : Pattern16) : patternOfA (p.setWidth 64) = p := Machine.zext64_low p

theorem decodeRequest_request (i : Instr) : decodeRequest i.request = .ok i := by
  cases i with
  | encode x => rfl
  | decode p => exact congrArg (fun q => Except.ok (Instr.decode q)) (patternOfA_setWidth p)
  | add a b => exact congrArg (fun q => Except.ok (Instr.add q b)) (patternOfA_setWidth a)

theorem decodeWord_encodeInstr (i : Instr) : decodeWord (encodeInstr i) = .ok i := by
  rw [decodeWord, encodeInstr, requestOfWord_word, decodeRequest_request]

/-- A request word is the number it is in the 88 bits of the opcode table. -/
theorem decodeTableWord_toNat (w : ReqWord) : decodeTableWord 88 w.toNat = (decodeWord w).toOption := by
  have hw := w.isLt
  have hmod : w.toNat % 2 ^ 88 = w.toNat := Nat.mod_eq_of_lt (by omega)
  have hreq : reqWordOfNat 88 w.toNat = .ok w := by
    simp only [reqWordOfNat, hmod, if_pos hw, BitVec.ofNat_toNat, BitVec.setWidth_eq]
  rw [decodeTableWord, decodeNat, hreq]

/-! Encode after decode (R28, D5): the unused bits are cleared. -/

/-- The request with operand bits masked. -/
def Request.masked (r : Request) (b : BitVec 16) (a : BitVec 64) : Request := ⟨r.op, r.a &&& a, r.b &&& b⟩

/-- A mask over a request word keeps `op` and masks the operands. -/
theorem word_masked (r : Request) (b : BitVec 16) (a : BitVec 64) :
    (r.masked b a).word = r.word &&& (0b11#2 ++ b ++ a) := by
  have hop : r.op &&& 0b11#2 = r.op := BitVec.and_allOnes
  rw [Request.word, Request.word, Laws.append_and_append, Laws.append_and_append, hop, Request.masked]

/-- Cutting operand A to a pattern and extending it clears its upper bits. -/
theorem setWidth_patternOfA (a : BitVec 64) : (patternOfA a).setWidth 64 = a &&& 0xFFFF#64 := by
  apply BitVec.eq_of_toNat_eq
  have hmask : (0xFFFF#64).toNat = 2 ^ 16 - 1 := rfl
  rw [BitVec.toNat_and, hmask, Nat.and_two_pow_sub_one_eq_mod, patternOfA, BitVec.toNat_setWidth, Laws.toNat_slice]
  omega

theorem request_encode (r : Request) (hop : r.op = 0b00#2) :
    (Instr.encode r.a).request = r.masked 0#16 0xFFFFFFFFFFFFFFFF#64 := by
  have ha : r.a &&& 0xFFFFFFFFFFFFFFFF#64 = r.a := BitVec.and_allOnes
  simp [Instr.request, Instr.select, Request.masked, hop, ha]

theorem request_decode (r : Request) (hop : r.op = 0b01#2) :
    (Instr.decode (patternOfA r.a)).request = r.masked 0#16 0xFFFF#64 := by
  simp only [Instr.request, Instr.select, Request.masked, hop, setWidth_patternOfA, BitVec.and_zero]

theorem request_add (r : Request) (hop : r.op = 0b10#2) :
    (Instr.add (patternOfA r.a) r.b).request = r.masked 0xFFFF#16 0xFFFF#64 := by
  have hb : r.b &&& 0xFFFF#16 = r.b := BitVec.and_allOnes
  simp only [Instr.request, Instr.select, Request.masked, hop, setWidth_patternOfA, hb]

/-- The operand bits an operation uses, as a mask of the request word with `op` (R28). -/
def usedBits : Instr → ReqWord
  | .encode _ => 0x30000FFFFFFFFFFFFFFFF#82
  | .decode _ => 0x30000000000000000FFFF#82
  | .add _ _ => 0x3FFFF000000000000FFFF#82

theorem encodeInstr_of_decodeWord {w : ReqWord} {i : Instr} (h : decodeWord w = .ok i) :
    encodeInstr i = w &&& usedBits i := by
  rw [decodeWord] at h
  rw [encodeInstr]
  conv_rhs => rw [← word_requestOfWord w]
  rcases decodeRequest_cases (requestOfWord w) with ⟨hop, he⟩ | ⟨hop, he⟩ | ⟨hop, he⟩ | ⟨_, he⟩
  · cases he.symm.trans h
    rw [request_encode _ hop]
    exact word_masked _ _ _
  · cases he.symm.trans h
    rw [request_decode _ hop]
    exact word_masked _ _ _
  · cases he.symm.trans h
    rw [request_add _ hop]
    exact word_masked _ _ _
  · cases he.symm.trans h

/-- Settles O13: packing and slicing the request word are inverse, and the operand bits that are cut off are the unused ones. -/
theorem decodeAndEncodeAgree : Obligations.DecodeAndEncodeAgree := by
  refine ⟨fun i _ => ⟨decodeWord_encodeInstr i, ?_⟩, fun w i h => ?_⟩
  · rw [decodeTableWord_toNat, decodeWord_encodeInstr]
    rfl
  · rw [encodeInstr_of_decodeWord h]
    cases i with
    | encode x => rfl
    | decode p => rfl
    | add a b => rfl

/-! The opcode table (R72, D3). -/

/-- A row of the table with the select `sel` matches exactly the words with that operation select. -/
theorem matches_iff_op {row : OpcodeRow} {sel : BitVec 2} (hmask : row.mask = 0b11#2 ++ 0#16 ++ 0#64)
    (hmatch : row.matchBits = sel ++ 0#16 ++ 0#64) (w : ReqWord) :
    row.matches w = true ↔ (requestOfWord w).op = sel := by
  have hmasked : w &&& row.mask = (requestOfWord w).op ++ 0#16 ++ 0#64 := by
    conv_lhs => rw [← word_requestOfWord w, hmask, ← word_masked]
    simp [Request.word, Request.masked]
  rw [OpcodeRow.matches, hmasked, hmatch, beq_iff_eq]
  refine ⟨fun h => ?_, fun h => by rw [h]⟩
  have htop := congrArg (BitVec.extractLsb' (16 + 64) 2) h
  rwa [Laws.slice_append_top, Laws.slice_append_top] at htop

theorem decodeWord_of_op_ne_reserved {w : ReqWord} (h : (requestOfWord w).op ≠ reservedSelect) :
    ∃ i, decodeWord w = .ok i :=
  Machine.decodeRequest_of_op_ne_reserved _ h

theorem select_of_decodeWord {w : ReqWord} {i : Instr} (h : decodeWord w = .ok i) : i.select = (requestOfWord w).op := by
  rw [decodeWord] at h
  rcases decodeRequest_cases (requestOfWord w) with ⟨hop, he⟩ | ⟨hop, he⟩ | ⟨hop, he⟩ | ⟨_, he⟩
  · cases he.symm.trans h; exact hop.symm
  · cases he.symm.trans h; exact hop.symm
  · cases he.symm.trans h; exact hop.symm
  · cases he.symm.trans h

/-- The reserved select is the one error of the decoder (R73). -/
theorem decodeWord_eq_error_iff (w : ReqWord) :
    decodeWord w = .error .reservedOperationSelect ↔ (requestOfWord w).op = reservedSelect := by
  refine ⟨fun h => ?_, fun h => Machine.decodeRequest_of_reserved h⟩
  by_contra hop
  obtain ⟨i, hi⟩ := decodeWord_of_op_ne_reserved hop
  cases h.symm.trans hi

/-- Each row stands for one operation select: it matches the words with that select, and has the mnemonic of the operations
with that select. -/
theorem row_select {row : OpcodeRow} (h : row ∈ opcodeRows) :
    ∃ sel, sel ≠ reservedSelect ∧ (∀ w, row.matches w = true ↔ (requestOfWord w).op = sel) ∧
      ∀ i : Instr, i.mnemonic = row.mnemonic ↔ i.select = sel := by
  simp only [opcodeRows, List.mem_cons, List.not_mem_nil, or_false] at h
  rcases h with rfl | rfl | rfl
  · exact ⟨0b00#2, by decide, matches_iff_op rfl rfl, fun i => by cases i <;> simp [Instr.mnemonic, Instr.select]⟩
  · exact ⟨0b01#2, by decide, matches_iff_op rfl rfl, fun i => by cases i <;> simp [Instr.mnemonic, Instr.select]⟩
  · exact ⟨0b10#2, by decide, matches_iff_op rfl rfl, fun i => by cases i <;> simp [Instr.mnemonic, Instr.select]⟩

theorem exists_row (i : Instr) : ∃ row ∈ opcodeRows, i.mnemonic = row.mnemonic := by
  cases i with
  | encode x => exact ⟨opcodeRows[0], by decide, rfl⟩
  | decode p => exact ⟨opcodeRows[1], by decide, rfl⟩
  | add a b => exact ⟨opcodeRows[2], by decide, rfl⟩

theorem matches_iff_decodeWord {row : OpcodeRow} (h : row ∈ opcodeRows) (w : ReqWord) :
    row.matches w = true ↔ ∃ i, decodeWord w = .ok i ∧ i.mnemonic = row.mnemonic := by
  obtain ⟨sel, hsel, hmatch, hname⟩ := row_select h
  simp only [hmatch, hname]
  constructor
  · intro hop
    obtain ⟨i, hi⟩ := decodeWord_of_op_ne_reserved (hop ▸ hsel)
    exact ⟨i, hi, (select_of_decodeWord hi).trans hop⟩
  · rintro ⟨i, hi, rfl⟩
    exact (select_of_decodeWord hi).symm

/-- Settles O14: a row tests the two bits `op`, which alone select the operation. -/
theorem decoderFollowsTheOpcodeTable : Obligations.DecoderFollowsTheOpcodeTable := by
  refine fun w => ⟨fun row hrow => matches_iff_decodeWord hrow w, ?_⟩
  rw [decodeWord_eq_error_iff]
  constructor
  · intro hnone
    by_contra hop
    obtain ⟨i, hi⟩ := decodeWord_of_op_ne_reserved hop
    obtain ⟨row, hrow, hname⟩ := exists_row i
    have hmatch := (matches_iff_decodeWord hrow w).2 ⟨i, hi, hname⟩
    simp [hnone row hrow] at hmatch
  · intro hop row hrow
    obtain ⟨sel, hsel, hmatch, _⟩ := row_select hrow
    exact Bool.eq_false_iff.2 fun h => hsel (((hmatch w).1 h).symm.trans hop)

/-- Settles O12, by running the decoder on the five words. -/
theorem sampleWordsDecode : Obligations.SampleWordsDecode := by
  unfold Obligations.SampleWordsDecode
  decide

/-- The decoder reads operand A of DECODE and ADD through its low 16 bits only (R28). -/
theorem patternOfA_congr {a a' : BitVec 64} (h : a.toNat % 2 ^ 16 = a'.toNat % 2 ^ 16) : patternOfA a = patternOfA a' :=
  BitVec.eq_of_toNat_eq (by simpa [patternOfA] using h)

/-- Settles O15: no branch of the decoder reads the unused bits. -/
theorem unusedOperandBitsAreIgnored : Obligations.UnusedOperandBitsAreIgnored := by
  refine fun a a' b b' => ⟨rfl, fun h => ?_⟩
  have hpattern := patternOfA_congr h
  exact ⟨congrArg (fun q => Except.ok (Instr.decode q)) hpattern, congrArg (fun q => Except.ok (Instr.add q b)) hpattern⟩

end Sys2Proof

namespace Sys2Proof.Machine

/-! Pack and unpack (R55, R56). -/

theorem pack_unpack (p : Pattern16) : pack (unpack p) = p :=
  pattern_ext (signOf_pack _) (exponentOf_pack _) (fractionOf_pack _)

theorem unpack_pack (v : Sef) : unpack (pack v) = v := by
  rw [unpack, signOf_pack, exponentOf_pack, fractionOf_pack]

theorem pack_toNat (v : Sef) : (pack v).toNat = v.sign.toNat * 32768 + v.exponent.toNat * 2048 + v.fraction.toNat := by
  rw [pack, Laws.toNat_append_eq, Laws.toNat_append_eq]
  omega

/-- Settles O16: the fields of a packed triple are the triple, and fields determine a pattern. -/
theorem packAndUnpackAreInverse : Obligations.PackAndUnpackAreInverse :=
  ⟨pack_unpack, unpack_pack, pack_toNat⟩

/-! The predicates in the terms of R58's table. -/

theorem field_eq_iff {n : Nat} (v : BitVec n) {k : Nat} (hk : k < 2 ^ n) : v = BitVec.ofNat n k ↔ v.toNat = k := by
  rw [← BitVec.toNat_inj, BitVec.toNat_ofNat, Nat.mod_eq_of_lt hk]

/-- `isNaN` as a comparison of the low 15 bits (R59). -/
theorem isNaN_iff_low15 (p : Pattern16) : isNaN p = true ↔ 0x7800 < p.toNat % 2 ^ 15 := by
  have := p.isLt
  rw [isNaN_iff, ne_eq, field_eq_iff _ (by decide), field_eq_iff _ (by decide), exponentOf_toNat, fractionOf_toNat]
  omega

/-- Settles O18: a predicate tests the fields of one row of the table, or of the rows that are left over. -/
theorem predicatesPickTheClasses : Obligations.PredicatesPickTheClasses := by
  intro p
  obtain ⟨hzero, hsubnormal, hnormal, hinfinity, hnan⟩ := classOf_iff p
  have hexp : (exponentOf p).toNat < 16 := (exponentOf p).isLt
  have he0 : exponentOf p = 0#4 ↔ (exponentOf p).toNat = 0 := field_eq_iff _ (by decide)
  have he15 : exponentOf p = 15#4 ↔ (exponentOf p).toNat = 15 := field_eq_iff _ (by decide)
  have hf0 : fractionOf p = 0#11 ↔ (fractionOf p).toNat = 0 := field_eq_iff _ (by decide)
  refine ⟨?_, ?_, ?_, ?_, ?_, isNaN_iff_low15 p, ?_⟩
  · rw [hzero, isZero_iff, he0, hf0]
  · rw [hsubnormal, isSubnormal, Bool.and_eq_true, beq_iff_eq, bne_iff_ne, ne_eq, he0, hf0]
  · rw [hnormal, isNormal, Bool.and_eq_true, bne_iff_ne, bne_iff_ne, ne_eq, ne_eq, he0, he15]
    omega
  · rw [hinfinity, isInf_iff, he15, hf0]
  · rw [hnan, isNaN_iff, ne_eq, he15, hf0]
  · rw [ne_eq, ne_eq, hinfinity, hnan, isFinite_iff, ne_eq, he15]
    omega

end Sys2Proof.Machine
end

section
/-! Reading a binary string bit by bit, and reading hexadecimal output back (42_codec_binary_string.md R116 to R125). -/

namespace Sys2Proof.Machine

/-! The bits of the number a digit sequence spells (R117). -/

theorem testBit_two_mul_add_bit_zero (v : Nat) (c : Char) :
    (v * 2 + (if c = '1' then 1 else 0)).testBit 0 = true ↔ c = '1' := by
  rw [Nat.testBit_zero, decide_eq_true_iff]
  split
  · simp [*]
  · simp [*]

theorem testBit_two_mul_add_bit_succ (v : Nat) (c : Char) (k : Nat) :
    (v * 2 + (if c = '1' then 1 else 0)).testBit (k + 1) = v.testBit k := by
  rw [Nat.testBit_succ]
  congr 1
  split <;> omega

/-- Character `i` of a digit sequence is the bit as far from the top. -/
theorem testBit_binaryValue (t : BinString) : ∀ i < t.length,
    ((binaryValue t).testBit (t.length - 1 - i) = true ↔ t[i]? = some '1') := by
  induction t using List.reverseRecOn with
  | nil => intro i hi; cases hi
  | append_singleton t c ih =>
    intro i hi
    rw [List.length_append, List.length_singleton] at hi ⊢
    rw [binaryValue_concat]
    rcases Nat.lt_or_ge i t.length with hlt | hge
    · have hindex : t.length + 1 - 1 - i = t.length - 1 - i + 1 := by omega
      rw [hindex, testBit_two_mul_add_bit_succ, ih i hlt, List.getElem?_append_left hlt]
    · obtain rfl : i = t.length := by omega
      have hindex : t.length + 1 - 1 - t.length = 0 := by omega
      rw [hindex, testBit_two_mul_add_bit_zero, List.getElem?_append_right hge, Nat.sub_self, List.getElem?_cons_zero,
        Option.some_inj]

/-- What is known of a string that is read: its filtered form has 16 characters, and the pattern is the number it spells. -/
theorem fromBinaryString_eq_ok {s : BinString} {p : Pattern16} (h : fromBinaryString s = .ok p) :
    (binaryDigits s).length = 16 ∧ p.toNat = binaryValue (binaryDigits s) := by
  by_cases hlen : (binaryDigits s).length = 16
  · have hlt := binaryValue_lt (binaryDigits s)
    rw [hlen] at hlt
    rw [fromBinaryString_of_length hlen] at h
    cases h
    exact ⟨hlen, Nat.mod_eq_of_lt hlt⟩
  · rw [fromBinaryString_of_length_ne hlen] at h
    cases h

theorem testBit_of_fromBinaryString {s : BinString} {p : Pattern16} (h : fromBinaryString s = .ok p) {i : Nat}
    (hi : i < 16) : p.toNat.testBit (15 - i) = true ↔ (binaryDigits s)[i]? = some '1' := by
  obtain ⟨hlen, hp⟩ := fromBinaryString_eq_ok h
  have hbit := testBit_binaryValue (binaryDigits s) i (by omega)
  rwa [hlen, ← hp] at hbit

/-- Settles O54: the last character is bit 0, and each character before it one bit higher. -/
theorem binaryStringIsReadMostSignificantFirst : Obligations.BinaryStringIsReadMostSignificantFirst := by
  intro s p h i hi
  rw [testBit_of_fromBinaryString h hi, binaryDigits_eq_filter]

/-! The round trips (R120). -/

theorem bitChar_eq_one_iff (b : Bool) : bitChar b = '1' ↔ b = true := by
  cases b
  · decide
  · decide

theorem isBinaryDigit_bitChar (b : Bool) : isBinaryDigit (bitChar b) = true := by
  cases b
  · decide
  · decide

/-- Of the two digits, a digit is the character of the bit that says whether it is '1'. -/
theorem eq_bitChar {c : Char} (h : c = '0' ∨ c = '1') {b : Bool} (hb : b = true ↔ c = '1') : c = bitChar b := by
  rcases h with rfl | rfl
  · have hfalse : b = false := Bool.eq_false_iff.2 fun ht => absurd (hb.1 ht) (by decide)
    rw [hfalse]
    rfl
  · rw [hb.2 rfl]
    rfl

theorem binaryDigits_toBinaryString (p : Pattern16) : binaryDigits (toBinaryString p) = toBinaryString p := by
  refine List.filter_eq_self.2 fun c hc => ?_
  obtain ⟨i, _, rfl⟩ := List.mem_map.1 hc
  exact isBinaryDigit_bitChar _

theorem fromBinaryString_toBinaryString (p : Pattern16) : fromBinaryString (toBinaryString p) = .ok p := by
  have hdigits := binaryDigits_toBinaryString p
  have hread := fromBinaryString_of_length (s := toBinaryString p) (by rw [hdigits, length_toBinaryString])
  rw [hread]
  congr 1
  apply BitVec.eq_of_getLsbD_eq
  intro k hk
  have hindex : 15 - (15 - k) = k := by omega
  have hbit := testBit_of_fromBinaryString hread (show 15 - k < 16 by omega)
  rw [BitVec.testBit_toNat, hdigits, getElem?_toBinaryString p (by omega), Option.some_inj, bitChar_eq_one_iff, hindex] at hbit
  rw [hdigits]
  exact Bool.eq_iff_iff.2 hbit

theorem toBinaryString_of_fromBinaryString {s : BinString} {p : Pattern16} (h : fromBinaryString s = .ok p) :
    toBinaryString p = binaryDigits s := by
  obtain ⟨hlen, _⟩ := fromBinaryString_eq_ok h
  refine List.ext_getElem (by rw [length_toBinaryString, hlen]) fun i hi hi' => ?_
  have hi16 : i < 16 := by rwa [length_toBinaryString] at hi
  have hbit := testBit_of_fromBinaryString h hi16
  rw [List.getElem?_eq_getElem hi', Option.some_inj, BitVec.testBit_toNat] at hbit
  have hchar := getElem?_toBinaryString p hi16
  rw [List.getElem?_eq_getElem hi, Option.some_inj] at hchar
  rw [hchar, ← eq_bitChar (mem_binaryDigits (List.getElem_mem hi')) hbit]

/-- Settles O55: a written string has 16 digits whose bits are the pattern's, and a digit is the character of its bit. -/
theorem binaryStringRoundTrips : Obligations.BinaryStringRoundTrips := by
  refine ⟨fromBinaryString_toBinaryString, fun s p h => ?_⟩
  rw [toBinaryString_of_fromBinaryString h, binaryDigits_eq_filter]

/-! Hexadecimal output (R124, R125). -/

/-- An output text is `0x` and the digits of the pattern, at least one. -/
theorem isHexOutput_eq_true {p : Pattern16} {s : List Char} (h : isHexOutput p s = true) :
    ∃ t, s = '0' :: 'x' :: t ∧ t.isEmpty = false ∧ lowerHexValue t = some p.toNat := by
  unfold isHexOutput at h
  split at h
  · next t =>
    obtain ⟨hne, hvalue⟩ := Bool.and_eq_true_iff.1 h
    exact ⟨t, rfl, by simpa using hne, beq_iff_eq.1 hvalue⟩
  · cases h

theorem readHex_of_lowerHexValue {t : List Char} {n : Nat} (hne : t.isEmpty = false) (hvalue : lowerHexValue t = some n)
    (hn : n < 2 ^ 16) : readHex ('0' :: 'x' :: t) = .pattern (BitVec.ofNat 16 n) := by
  have hstrip : stripHexPrefix ('0' :: 'x' :: t) = t := rfl
  simp only [readHex, hstrip, hne, hvalue, if_pos hn]
  rfl

/-- Settles O56: reading strips the `0x` that writing put there and reads the same digits. -/
theorem hexOutputReadsBack : Obligations.HexOutputReadsBack := by
  intro p s h
  obtain ⟨t, rfl, hne, hvalue⟩ := isHexOutput_eq_true h
  rw [readHex_of_lowerHexValue hne hvalue p.isLt, BitVec.ofNat_toNat, BitVec.setWidth_eq]

end Sys2Proof.Machine
end

section
/-! The shift with sticky for any two amounts (R16, R144). -/

namespace Sys2Proof.Machine

/-- A nonzero value shifted out as a whole leaves the sticky bit (R16). -/
theorem srs_eq_one {m d : Nat} (hm : m ≠ 0) (hlt : m < 2 ^ d) : srs m d = 1 := by
  have hd : d ≠ 0 := fun h0 => by subst h0; omega
  by_cases hd64 : d < 64
  · rw [srs_sticky hd64 (by rwa [Nat.mod_eq_of_lt hlt]), Nat.div_eq_of_lt hlt]
  · rw [srs, if_neg hd, if_neg hd64, if_pos hm]

/-- Settles O51: below 64 in sum the quotients compose, and from 64 on the whole value becomes the sticky bit either way. -/
theorem stickySurvivesLaterShifts : Obligations.StickySurvivesLaterShifts := by
  intro m d e hm64
  by_cases hm : m = 0
  · rw [hm, srs_zero, srs_zero, srs_zero]
  by_cases hde : d + e < 64
  · exact srs_srs m hde
  have out_of_range {k : Nat} (hk : 64 ≤ k) : m < 2 ^ k := hm64.trans_le (Nat.pow_le_pow_right Nat.two_pos hk)
  rw [srs_eq_one (d := d + e) hm (out_of_range (by omega))]
  by_cases he : e = 0
  · subst he
    rw [srs_zero_shift]
    exact srs_eq_one hm (out_of_range (by omega))
  · refine srs_eq_one (srs_pos hm) ?_
    have heven : 2 ^ e = 2 * 2 ^ (e - 1) := (mul_pow_sub_one he 2).symm
    by_cases hd : d < 64
    · rw [srs_lt_iff m hd (by omega), ← Nat.pow_add]
      exact out_of_range (by omega)
    · have hpos : 0 < 2 ^ (e - 1) := Nat.two_pow_pos _
      rw [srs_eq_one hm (out_of_range (show 64 ≤ d by omega))]
      omega

end Sys2Proof.Machine
end

section
/-! DECODE of NaNs and of finite patterns (41_codec_decode.md R103 to R108). -/

namespace Sys2Proof.Machine

/-- Settles O30: every NaN decodes to the one constant `DEC_NAN`. -/
theorem decodeOfNaNIsOneNaN : Obligations.DecodeOfNaNIsOneNaN := by
  intro p q hp hq
  rw [decodePattern_of_nan p hp, decodePattern_of_nan q hq]
  exact ⟨f64IsNaN_decNan, rfl⟩

/-! The magnitudes by the row of the table. -/

theorem sefUnit_eq_two_pow : sefUnit = 2 ^ 1057 := rfl

theorem sefUnit_pos : 0 < sefUnit := by
  rw [sefUnit_eq_two_pow]
  exact pow_pos two_pos _

theorem sefMagnitude_of_exponent_zero {p : Pattern16} (he : exponentOf p = 0#4) :
    sefMagnitude p = (fractionOf p).toNat := by
  simp [sefMagnitude, sig12, effExponent, he]

theorem sefMagnitude_of_normal {p : Pattern16} (he : exponentOf p ≠ 0#4) :
    sefMagnitude p = (2 ^ 11 + (fractionOf p).toNat) * 2 ^ ((exponentOf p).toNat - 1) := by
  rw [sefMagnitude, sig12, if_pos he, effExponent, if_pos he]

theorem f64Magnitude_decodeSubnormal (s : BitVec 1) {f : Nat} (hpos : f ≠ 0) (hlt : f < 2 ^ 11) :
    f64Magnitude (decodeSubnormal s f) = f * sefUnit := by
  have hk : f.log2 < 11 := (Nat.log2_lt hpos).2 hlt
  have hexp := f64Exponent_decodeSubnormal s hpos hlt
  have hsum : 52 - f.log2 + (1006 + f.log2 - 1) = 1057 := by omega
  rw [f64Magnitude_of_exponent_ne_zero _ (by omega), significand_decodeSubnormal s hpos hlt, hexp, Nat.mul_assoc,
    ← pow_add, hsum, sefUnit_eq_two_pow]

theorem f64Magnitude_decodeNormal (s : BitVec 1) {e f : Nat} (hpos : e ≠ 0) (he : e < 15) (hlt : f < 2 ^ 11) :
    f64Magnitude (decodeNormal s e f) = (2 ^ 11 + f) * 2 ^ (e - 1) * sefUnit := by
  have hexp := f64Exponent_decodeNormal s f he
  have hshift : 2 ^ 52 + f * 2 ^ 41 = (2 ^ 11 + f) * 2 ^ 41 := by omega
  have hsum : 41 + (e + 1016 - 1) = e - 1 + 1057 := by omega
  rw [Nat.mul_assoc, sefUnit_eq_two_pow, ← pow_add, f64Magnitude_of_exponent_ne_zero _ (by omega),
    f64Fraction_decodeNormal s e hlt, hexp, hshift, Nat.mul_assoc, ← pow_add, hsum]

/-- DECODE of a finite pattern keeps the sign, and its exponent is 0 for a zero and that of a binary64 normal otherwise; the
magnitude is the pattern's (R102 to R104, R108). -/
theorem decodePattern_of_finite {p : Pattern16} (h : isFinite p = true) :
    f64Sign (decodePattern p) = signOf p ∧ f64Magnitude (decodePattern p) = sefMagnitude p * sefUnit ∧
    (f64IsZero (decodePattern p) = true ∨ f64Exponent (decodePattern p) ≠ 0) ∧ f64Exponent (decodePattern p) ≠ 2047 := by
  have hlt : (fractionOf p).toNat < 2 ^ 11 := (fractionOf p).isLt
  have hexp : (exponentOf p).toNat < 16 := (exponentOf p).isLt
  have he15 := (isFinite_iff p).1 h
  by_cases he0 : exponentOf p = 0#4
  · by_cases hf0 : fractionOf p = 0#11
    · rw [decodePattern_of_zero p he0 hf0, sefMagnitude_of_exponent_zero he0, hf0]
      simp [f64IsZero, f64Magnitude]
    · have hpos := toNat_ne_zero hf0
      have hk : (fractionOf p).toNat.log2 < 11 := (Nat.log2_lt hpos).2 hlt
      have hexponent := f64Exponent_decodeSubnormal (signOf p) hpos hlt
      rw [decodePattern_of_subnormal p he0 hf0, sefMagnitude_of_exponent_zero he0]
      exact ⟨f64Sign_decodeSubnormal _ _, f64Magnitude_decodeSubnormal _ hpos hlt, .inr (by omega), by omega⟩
  · have hpos := toNat_ne_zero he0
    have hne : (exponentOf p).toNat ≠ 15 := fun h => he15 (BitVec.eq_of_toNat_eq h)
    have hexponent := f64Exponent_decodeNormal (signOf p) (fractionOf p).toNat (show (exponentOf p).toNat < 15 by omega)
    rw [decodePattern_of_normal p he0 he15, sefMagnitude_of_normal he0]
    exact ⟨f64Sign_decodeNormal _ _ _, f64Magnitude_decodeNormal _ hpos (by omega) hlt, .inr (by omega), by omega⟩

/-- Settles O31: sign and magnitude of a decoded finite pattern are the pattern's. -/
theorem decodeIsExact : Obligations.DecodeIsExact := by
  intro p h
  obtain ⟨hsign, hmag, hzero, hfin⟩ := decodePattern_of_finite h
  refine ⟨by simpa [f64IsFinite] using hfin, hsign, ?_, ?_⟩
  · rw [f64Value, hsign, hmag, signed_mul, sefValue]
  · rcases hzero with hz | hne
    · simp only [f64IsZero, Bool.and_eq_true, beq_iff_eq] at hz
      simp [f64IsSubnormal, hz.2]
    · simp [f64IsSubnormal, hne]

/-! The order of patterns (R66). -/

/-- The low 15 bits count the significands below the pattern's: 2048 for each exponent above 1, and the significand. -/
theorem low15_eq_sig12 (p : Pattern16) : p.toNat % 2 ^ 15 = (effExponent p - 1) * 2048 + sig12 p := by
  have hfields : p.toNat % 2 ^ 15 = (exponentOf p).toNat * 2 ^ 11 + (fractionOf p).toNat := by
    rw [exponentOf_toNat, fractionOf_toNat]; omega
  by_cases he0 : exponentOf p = 0#4
  · rw [hfields, effExponent, if_neg (not_not.2 he0), sig12, if_neg (not_not.2 he0), he0]
    simp
  · have hpos := toNat_ne_zero he0
    rw [hfields, effExponent, if_pos he0, sig12, if_pos he0]
    simp only [Config.fracBits]
    omega

theorem sig12_ge_of_effExponent {p : Pattern16} (h : 1 < effExponent p) : 2048 ≤ sig12 p :=
  sig12_ge_of_normal p fun h0 => by simp [effExponent, h0] at h

/-- A greater effective exponent means a greater magnitude. -/
theorem sefMagnitude_lt_of_effExponent_lt {p q : Pattern16} (h : effExponent p < effExponent q) :
    sefMagnitude p < sefMagnitude q := by
  have hp := effExponent_pos p
  have hsig := sig12_lt p
  obtain ⟨e, he⟩ : ∃ e, effExponent p = e + 1 := ⟨effExponent p - 1, by omega⟩
  calc sefMagnitude p < 2 ^ 12 * 2 ^ (effExponent p - 1) := Nat.mul_lt_mul_of_pos_right hsig (Nat.two_pow_pos _)
    _ = 2048 * 2 ^ effExponent p := by rw [he, Nat.add_sub_cancel]; ring
    _ ≤ sefMagnitude q := Nat.mul_le_mul (sig12_ge_of_effExponent (by omega)) (Nat.pow_le_pow_right Nat.two_pos (by omega))

/-- The low 15 bits order the magnitudes. -/
theorem sefMagnitude_lt_of_low15_lt {p q : Pattern16} (h : p.toNat % 2 ^ 15 < q.toNat % 2 ^ 15) :
    sefMagnitude p < sefMagnitude q := by
  have hq := sig12_lt q
  have hpos := effExponent_pos q
  rw [low15_eq_sig12, low15_eq_sig12] at h
  rcases Nat.lt_trichotomy (effExponent p) (effExponent q) with hlt | heq | hgt
  · exact sefMagnitude_lt_of_effExponent_lt hlt
  · rw [heq] at h
    rw [sefMagnitude, sefMagnitude, heq]
    exact Nat.mul_lt_mul_of_pos_right (by omega) (Nat.two_pow_pos _)
  · have hp := sig12_ge_of_effExponent (show 1 < effExponent p by omega)
    omega

theorem sefMagnitude_congr {p q : Pattern16} (h : p.toNat % 2 ^ 15 = q.toNat % 2 ^ 15) :
    sefMagnitude p = sefMagnitude q := by
  have he : exponentOf p = exponentOf q := BitVec.eq_of_toNat_eq (by rw [exponentOf_toNat, exponentOf_toNat]; omega)
  have hf : fractionOf p = fractionOf q := BitVec.eq_of_toNat_eq (by rw [fractionOf_toNat, fractionOf_toNat]; omega)
  simp only [sefMagnitude, sig12, effExponent, he, hf]

theorem sefMagnitude_lt_iff (p q : Pattern16) :
    sefMagnitude p < sefMagnitude q ↔ p.toNat % 2 ^ 15 < q.toNat % 2 ^ 15 := by
  refine ⟨fun h => ?_, sefMagnitude_lt_of_low15_lt⟩
  rcases Nat.lt_trichotomy (p.toNat % 2 ^ 15) (q.toNat % 2 ^ 15) with hlt | heq | hgt
  · exact hlt
  · exact absurd (sefMagnitude_congr heq) h.ne
  · exact absurd (sefMagnitude_lt_of_low15_lt hgt) h.asymm

theorem sefValue_of_sign_zero {p : Pattern16} (h : signOf p = 0#1) : sefValue p = sefMagnitude p := by
  simp [sefValue, signed, h]

theorem toNat_of_sign_zero {p : Pattern16} (h : signOf p = 0#1) : p.toNat % 2 ^ 15 = p.toNat := by
  have hsign := signOf_toNat p
  rw [h, BitVec.toNat_ofNat] at hsign
  omega

/-- Up to exponent 1 the unit of the pattern is `2^-17`, so the low 15 bits are the magnitude. -/
theorem sefMagnitude_of_exponent_le_one {p : Pattern16} (h : (exponentOf p).toNat ≤ 1) :
    sefMagnitude p = p.toNat % 2 ^ 15 := by
  have heff : effExponent p = 1 := by
    unfold effExponent
    split
    · have := toNat_ne_zero ‹exponentOf p ≠ 0#4›
      omega
    · rfl
  rw [low15_eq_sig12, sefMagnitude, heff]
  omega

/-- Settles O19: the low 15 bits order the magnitudes, and with sign 0 they are the pattern and the magnitude is the value. -/
theorem patternOrderIsValueOrder : Obligations.PatternOrderIsValueOrder := by
  refine ⟨fun p q _ _ hp hq => ?_, fun p h => sefMagnitude_of_exponent_le_one h⟩
  rw [sefValue_of_sign_zero hp, sefValue_of_sign_zero hq, Int.ofNat_lt, sefMagnitude_lt_iff, toNat_of_sign_zero hp,
    toNat_of_sign_zero hq]

end Sys2Proof.Machine
end

section
/-! Rounding to nearest, ties to even, as a relation: scaling, order, and nearness on the grid of the format (R17, R159). -/

namespace Sys2Proof.Machine

theorem isNearestEven_zero {n d : Nat} (h : 2 * n < d) : IsNearestEven n d 0 :=
  ⟨by omega, by omega, fun _ => rfl⟩

theorem isNearestEven_mul_iff {n d q c : Nat} (hc : 0 < c) :
    IsNearestEven (n * c) (d * c) q ↔ IsNearestEven n d q := by
  have twice : 2 * (n * c) = 2 * n * c := by ring
  have upper : (2 * q + 1) * (d * c) = (2 * q + 1) * d * c := by ring
  have lower : 2 * q * (d * c) = 2 * q * d * c := by ring
  have reach : 2 * n * c + d * c = (2 * n + d) * c := by ring
  rw [IsNearestEven, IsNearestEven, twice, upper, lower, reach]
  simp only [Nat.mul_le_mul_right_iff hc, Nat.mul_left_inj hc.ne']

/-- An even multiple of the divisor added moves the nearest integer by that multiple. -/
theorem isNearestEven_add {n d q k : Nat} (hk : k % 2 = 0) (h : IsNearestEven n d q) :
    IsNearestEven (k * d + n) d (k + q) := by
  obtain ⟨hup, hdown, htie⟩ := h
  have upper : (2 * (k + q) + 1) * d = 2 * (k * d) + (2 * q + 1) * d := by ring
  have lower : 2 * (k + q) * d = 2 * (k * d) + 2 * q * d := by ring
  rw [IsNearestEven, upper, lower]
  exact ⟨by omega, by omega, fun h => by have := htie (by omega); omega⟩

/-- The nearest integer grows with the value. -/
theorem isNearestEven_mono {n n' d q q' : Nat} (hd : 0 < d) (h : IsNearestEven n d q) (h' : IsNearestEven n' d q')
    (hle : n ≤ n') : q ≤ q' := by
  by_contra hlt
  obtain ⟨_, hdown, htie⟩ := h
  obtain ⟨hup', _, htie'⟩ := h'
  obtain ⟨k, rfl⟩ : ∃ k, q = q' + 1 + k := ⟨q - (q' + 1), by omega⟩
  have spread : 2 * (q' + 1 + k) * d = (2 * q' + 1) * d + d + 2 * (k * d) := by ring
  rw [spread] at hdown htie
  obtain rfl : k = 0 := (Nat.mul_eq_zero.1 (by omega : k * d = 0)).resolve_right hd.ne'
  have heven := htie (.inr (by omega))
  have heven' := htie' (.inl (by omega))
  omega

/-- No multiple of the divisor is nearer than the nearest. -/
theorem gap_le_of_isNearestEven {n d q : Nat} (h : IsNearestEven n d q) (k : Nat) : gap n (q * d) ≤ gap n (k * d) := by
  obtain ⟨hup, hdown, _⟩ := h
  have upper : (2 * q + 1) * d = 2 * (q * d) + d := by ring
  have lower : 2 * q * d = 2 * (q * d) := by ring
  rw [upper] at hup
  rw [lower] at hdown
  unfold gap
  rcases Nat.lt_trichotomy k q with hlt | rfl | hgt
  · have := Nat.mul_le_mul_right d hlt
    rw [Nat.succ_mul] at this
    omega
  · exact le_rfl
  · have := Nat.mul_le_mul_right d hgt
    rw [Nat.succ_mul] at this
    omega

/-- If another multiple is as near, the nearest is even. -/
theorem even_of_gap_eq {n d q k : Nat} (hd : 0 < d) (h : IsNearestEven n d q) (heq : gap n (k * d) = gap n (q * d))
    (hne : k ≠ q) : q % 2 = 0 := by
  obtain ⟨hup, hdown, htie⟩ := h
  have upper : (2 * q + 1) * d = 2 * (q * d) + d := by ring
  have lower : 2 * q * d = 2 * (q * d) := by ring
  rw [upper] at hup htie
  rw [lower] at hdown htie
  unfold gap at heq
  rcases Nat.lt_or_gt_of_ne hne with hlt | hgt
  · have := Nat.mul_le_mul_right d hlt
    rw [Nat.succ_mul] at this
    exact htie (.inr (by omega))
  · have := Nat.mul_le_mul_right d hgt
    rw [Nat.succ_mul] at this
    exact htie (.inl (by omega))

/-! The grid (R159). -/

/-- From the binade of `x` on, a magnitude of the grid is a multiple of that binade's unit. -/
theorem onGrid_cases {g x : Nat} (h : OnGrid g) (hx : 1 ≤ x) :
    (∃ k, g = k * 2 ^ (x - 1)) ∨ g < 2048 * 2 ^ (x - 1) := by
  obtain ⟨sig, y, ⟨hy, hsig, _⟩, rfl⟩ := h
  rcases Nat.lt_or_ge y x with hlt | hge
  · right
    calc sig * 2 ^ (y - 1) < 4096 * 2 ^ (y - 1) := Nat.mul_lt_mul_of_pos_right hsig (Nat.two_pow_pos _)
      _ = 2048 * 2 ^ (y - 1 + 1) := by ring
      _ ≤ 2048 * 2 ^ (x - 1) := Nat.mul_le_mul_left _ (Nat.pow_le_pow_right Nat.two_pos (by omega))
  · have hsplit : y - 1 = y - x + (x - 1) := by omega
    exact .inl ⟨sig * 2 ^ (y - x), by rw [Nat.mul_assoc, ← Nat.pow_add, hsplit]⟩

/-- A pattern's magnitude is on the grid. -/
theorem onGrid_sefMagnitude (p : Pattern16) : OnGrid (sefMagnitude p) := by
  refine ⟨sig12 p, effExponent p, ⟨effExponent_pos p, sig12_lt p, ?_⟩, rfl⟩
  rcases Nat.lt_or_eq_of_le (effExponent_pos p) with hlt | heq
  · exact .inl (sig12_ge_of_effExponent hlt)
  · exact .inr heq.symm

/-- In a binade, or in the lowest one, the nearest multiple of the binade's unit `2^(x-1) * u` is as near as any magnitude of the
grid, and even when another is as near. -/
theorem gap_grid_of_isNearestEven {n q x u g : Nat} (hu : 0 < u) (hx : 1 ≤ x)
    (hq : IsNearestEven n (2 ^ (x - 1) * u) q) (hlow : x = 1 ∨ 2048 * (2 ^ (x - 1) * u) ≤ n) (hg : OnGrid g) :
    gap n (q * (2 ^ (x - 1) * u)) ≤ gap n (g * u) ∧
    (gap n (g * u) = gap n (q * (2 ^ (x - 1) * u)) → g ≠ q * 2 ^ (x - 1) → q % 2 = 0) := by
  have hunit : 0 < 2 ^ (x - 1) * u := Nat.mul_pos (Nat.two_pow_pos _) hu
  have multiple {k : Nat} (hk : g = k * 2 ^ (x - 1)) :
      gap n (q * (2 ^ (x - 1) * u)) ≤ gap n (g * u) ∧
      (gap n (g * u) = gap n (q * (2 ^ (x - 1) * u)) → g ≠ q * 2 ^ (x - 1) → q % 2 = 0) := by
    rw [hk, Nat.mul_assoc]
    exact ⟨gap_le_of_isNearestEven hq k, fun heq hne => even_of_gap_eq hunit hq heq fun h => hne (by rw [h])⟩
  rcases onGrid_cases hg hx with ⟨k, hk⟩ | hsmall
  · exact multiple hk
  · rcases hlow with rfl | hlow
    · exact multiple (k := g) (by simp)
    · have hbelow : g * u < 2048 * (2 ^ (x - 1) * u) := by
        rw [← Nat.mul_assoc]
        exact Nat.mul_lt_mul_of_pos_right hsmall hu
      have hbest := gap_le_of_isNearestEven hq 2048
      generalize g * u = gu at *
      generalize 2048 * (2 ^ (x - 1) * u) = low at *
      generalize gap n (q * (2 ^ (x - 1) * u)) = best at *
      unfold gap at *
      omega

end Sys2Proof.Machine
end

section
/-! ENCODE of a finite operand, by its exponent field: sign, and fields rounded to nearest (R87 to R95). -/

namespace Sys2Proof.Machine

/-! Packed patterns as numbers. -/

theorem low15_packNat (s : BitVec 1) {e f : Nat} (he : e < 16) (hf : f < 2048) :
    (packNat s e f).toNat % 2 ^ 15 = e * 2048 + f := by
  rw [packNat, pack_toNat, BitVec.toNat_ofNat, BitVec.toNat_ofNat]
  omega

theorem sefMagnitude_packNat_zero (s : BitVec 1) {f : Nat} (hf : f < 2048) : sefMagnitude (packNat s 0 f) = f := by
  rw [sefMagnitude_of_exponent_zero (exponentOf_packNat s 0 f), fractionOf_packNat, BitVec.toNat_ofNat, Nat.mod_eq_of_lt hf]

theorem sefMagnitude_packNat (s : BitVec 1) {e f : Nat} (he : 1 ≤ e) (he16 : e < 16) (hf : f < 2048) :
    sefMagnitude (packNat s e f) = (2048 + f) * 2 ^ (e - 1) := by
  have hexp : (exponentOf (packNat s e f)).toNat = e := by
    rw [exponentOf_packNat, BitVec.toNat_ofNat, Nat.mod_eq_of_lt he16]
  have hne : exponentOf (packNat s e f) ≠ 0#4 := fun h => by rw [h] at hexp; simp at hexp; omega
  rw [sefMagnitude_of_normal hne, hexp, fractionOf_packNat, BitVec.toNat_ofNat, Nat.mod_eq_of_lt hf]
  rfl

theorem f64IsFinite_iff (x : F64) : f64IsFinite x = true ↔ f64Exponent x ≠ 2047 := bne_iff_ne

/-! The two paths of R87 and R89. -/

/-- Up to exponent field 1016, below `2^-6`: the magnitude in units of `2^-17`, rounded and clamped (R87, R92). -/
theorem encodeF64_of_exponent_le (x : F64) (h : f64Exponent x ≤ 1016) :
    ∃ q, IsNearestEven (f64Magnitude x) sefUnit q ∧ encodeF64 x = packNat (f64Sign x) 0 (min q 2047) := by
  by_cases htiny : f64Exponent x ≤ 1003
  · have below_half : 2 * f64Magnitude x < sefUnit := by
      rw [sefUnit_eq_two_pow]
      calc 2 * f64Magnitude x < 2 * 2 ^ (52 + f64Exponent x) := Nat.mul_lt_mul_of_pos_left (f64Magnitude_lt x) two_pos
        _ = 2 ^ (52 + f64Exponent x + 1) := (pow_succ' _ _).symm
        _ ≤ 2 ^ 1057 := pow_le_pow_right₀ one_le_two (by omega)
    refine ⟨0, isNearestEven_zero below_half, ?_⟩
    by_cases he0 : f64Exponent x = 0
    · exact encodeF64_of_exponent_zero x he0
    · rw [encodeF64_of_normal x he0 (by omega), encodeFinite_of_le _ _ _ h, if_pos (by omega)]
  · have hsum : 1058 - f64Exponent x + (f64Exponent x - 1) = 1057 := by omega
    have hscaled := (isNearestEven_mul_iff (pow_pos two_pos (f64Exponent x - 1))).2
      (rne_isNearestEven (2 ^ 52 + f64Fraction x) (1058 - f64Exponent x) (by omega))
    rw [← f64Magnitude_of_exponent_ne_zero x (by omega), ← pow_add, hsum,
      ← sefUnit_eq_two_pow] at hscaled
    refine ⟨_, hscaled, ?_⟩
    rw [encodeF64_of_normal x (by omega) (by omega), encodeFinite_of_le _ _ _ h, if_neg (by omega)]

/-- In exponent fields 1017 to 1030: the significand rounded to 12 bits, its carry in the exponent (R89). -/
theorem encodeF64_of_exponent_between (x : F64) (hlo : 1017 ≤ f64Exponent x) (hhi : f64Exponent x ≤ 1030) :
    ∃ q, IsNearestEven (f64Magnitude x) (2 ^ (40 + f64Exponent x)) q ∧ 2048 ≤ q ∧
      ((q < 4096 ∧ encodeF64 x = packNat (f64Sign x) (f64Exponent x - 1016) (q - 2048)) ∨
       (q = 4096 ∧ encodeF64 x = packNat (f64Sign x) (f64Exponent x - 1016 + 1) 0)) := by
  have hsum : 41 + (f64Exponent x - 1) = 40 + f64Exponent x := by omega
  have hlead : 2048 * 2 ^ 41 + f64Fraction x = 2 ^ 52 + f64Fraction x := rfl
  have hscaled := (isNearestEven_mul_iff (Nat.two_pow_pos (f64Exponent x - 1))).2
    (isNearestEven_add (k := 2048) rfl (rne_isNearestEven (f64Fraction x) 41 (by omega)))
  rw [hlead, ← f64Magnitude_of_exponent_ne_zero x (by omega), ← Nat.pow_add, hsum] at hscaled
  have hencode : encodeF64 x = encodeNormal (f64Sign x) (f64Exponent x - 1016) (f64Fraction x) := by
    rw [encodeF64_of_normal x (by omega) (by omega), encodeFinite_of_between _ _ _ hlo hhi]
  refine ⟨_, hscaled, by omega, ?_⟩
  rw [hencode]
  rcases encodeNormal_cases (f64Sign x) (f64Exponent x - 1016) (f64Fraction x) (f64Fraction_lt x) with
    ⟨hle, he⟩ | ⟨hq, _, he⟩ | ⟨hq, htop, he⟩
  · exact .inl ⟨by omega, by rw [he, Nat.add_sub_cancel_left]⟩
  · exact .inr ⟨by omega, he⟩
  · have hexp : f64Exponent x - 1016 + 1 = 15 := by omega
    exact .inr ⟨by omega, by rw [he, hexp]; rfl⟩

/-! Exponent field and magnitude. -/

theorem f64Magnitude_lt_iff (x : F64) {k : Nat} (hk : 1 ≤ k) : f64Magnitude x < 2 ^ (51 + k) ↔ f64Exponent x < k := by
  rw [← not_le, two_pow_le_f64Magnitude_iff x hk, not_le]

/-- `2^-6` is the lowest value of the binade of exponent field 1017. -/
theorem f64Magnitude_lt_smallest_normal_iff (x : F64) : f64Magnitude x < 2 ^ 1068 ↔ f64Exponent x ≤ 1016 := by
  have hpower : 1068 = 51 + 1017 := rfl
  rw [hpower, f64Magnitude_lt_iff x (by omega)]
  omega

/-- Settles O22: below `2^-6` the exponent field is at most 1016. -/
theorem encodeBelowTheSmallestNormal : Obligations.EncodeBelowTheSmallestNormal := by
  intro x _ hmag
  rw [f64Magnitude_lt_smallest_normal_iff] at hmag
  obtain ⟨q, hq, he⟩ := encodeF64_of_exponent_le x hmag
  refine ⟨q, hq, ?_⟩
  rw [he, signOf_packNat, exponentOf_packNat, fractionOf_packNat, BitVec.toNat_ofNat, BitVec.toNat_ofNat,
    Nat.mod_eq_of_lt (show min q 2047 < 2 ^ 11 by omega)]
  exact ⟨rfl, rfl, rfl⟩

/-- Settles O24: the binade of stored exponent `k` is that of exponent field `1016 + k`. -/
theorem encodeInANormalBinade : Obligations.EncodeInANormalBinade := by
  intro x k _ hk1 hk14 hlow hhigh
  have hpower_low : 1067 + k = 51 + (1016 + k) := by omega
  have hpower_high : 1068 + k = 51 + (1017 + k) := by omega
  have hunit : 40 + (1016 + k) = 1056 + k := by omega
  rw [hpower_low, two_pow_le_f64Magnitude_iff x (by omega)] at hlow
  rw [hpower_high, f64Magnitude_lt_iff x (by omega)] at hhigh
  have hexp : f64Exponent x = 1016 + k := by omega
  have hk : f64Exponent x - 1016 = k := by omega
  obtain ⟨q, hq, hq2048, hencode⟩ := encodeF64_of_exponent_between x (by omega) (by omega)
  rw [hexp, hunit] at hq
  rw [hk] at hencode
  refine ⟨q, hq, hq2048, ?_⟩
  rcases hencode with ⟨hlt, he⟩ | ⟨rfl, he⟩
  · rw [he, signOf_packNat, exponentOf_packNat, fractionOf_packNat, BitVec.toNat_ofNat, BitVec.toNat_ofNat,
      Nat.mod_eq_of_lt (by omega), Nat.mod_eq_of_lt (by omega)]
    exact ⟨by omega, rfl, fun _ => ⟨rfl, rfl⟩, by omega⟩
  · rw [he, signOf_packNat, exponentOf_packNat, fractionOf_packNat, BitVec.toNat_ofNat, Nat.mod_eq_of_lt (by omega)]
    exact ⟨le_rfl, rfl, by omega, fun _ => ⟨rfl, rfl⟩⟩

end Sys2Proof.Machine
end

section
/-! ENCODE of finite operands compared: the overflow threshold, order, nearness, sign, and the operands it keeps
(R88, R94, R95, R171 to R173). -/

namespace Sys2Proof.Machine

/-! The low 15 bits of the result, by the exponent field. -/

theorem low15_infinityOf (s : BitVec 1) : (infinityOf s).toNat % 2 ^ 15 = 15 * 2048 :=
  low15_packNat s (by decide) (by decide)

/-- The low 15 bits of ENCODE's result count the significands of the format, clamped below `2^-6` and from 256 on. -/
theorem low15_encodeF64_cases (x : F64) (hfin : f64IsFinite x = true) :
    (f64Exponent x ≤ 1016 ∧ ∃ q, IsNearestEven (f64Magnitude x) sefUnit q ∧
      (encodeF64 x).toNat % 2 ^ 15 = min q 2047) ∨
    ((1017 ≤ f64Exponent x ∧ f64Exponent x ≤ 1030) ∧
      ∃ q, IsNearestEven (f64Magnitude x) (2 ^ (40 + f64Exponent x)) q ∧ 2048 ≤ q ∧ q ≤ 4096 ∧
        (encodeF64 x).toNat % 2 ^ 15 = (f64Exponent x - 1017) * 2048 + q) ∨
    (1031 ≤ f64Exponent x ∧ (encodeF64 x).toNat % 2 ^ 15 = 15 * 2048) := by
  by_cases hle : f64Exponent x ≤ 1016
  · obtain ⟨q, hq, he⟩ := encodeF64_of_exponent_le x hle
    exact .inl ⟨hle, q, hq, by rw [he, low15_packNat _ (by omega) (by omega)]; omega⟩
  · by_cases hge : 1031 ≤ f64Exponent x
    · exact .inr (.inr ⟨hge, by rw [encodeF64_of_exponent_ge x hge ((f64IsFinite_iff x).1 hfin), low15_infinityOf]⟩)
    · refine .inr (.inl ⟨by omega, ?_⟩)
      obtain ⟨q, hq, hq2048, ⟨hlt, he⟩ | ⟨rfl, he⟩⟩ := encodeF64_of_exponent_between x (by omega) (by omega)
      · exact ⟨q, hq, hq2048, by omega, by rw [he, low15_packNat _ (by omega) (by omega)]; omega⟩
      · exact ⟨4096, hq, hq2048, le_rfl, by rw [he, low15_packNat _ (by omega) (by omega)]; omega⟩

theorem low15_encodeF64_le (x : F64) (hfin : f64IsFinite x = true) : (encodeF64 x).toNat % 2 ^ 15 ≤ 15 * 2048 := by
  rcases low15_encodeF64_cases x hfin with ⟨_, q, _, hlow15⟩ | ⟨⟨_, _⟩, q, _, _, _, hlow15⟩ | ⟨_, hlow15⟩
  · omega
  · omega
  · omega

/-- ENCODE keeps the sign of a finite operand. -/
theorem signOf_encodeF64 (x : F64) (hfin : f64IsFinite x = true) : signOf (encodeF64 x) = f64Sign x := by
  by_cases hle : f64Exponent x ≤ 1016
  · obtain ⟨q, _, he⟩ := encodeF64_of_exponent_le x hle
    rw [he, signOf_packNat]
  · by_cases hge : 1031 ≤ f64Exponent x
    · rw [encodeF64_of_exponent_ge x hge ((f64IsFinite_iff x).1 hfin), signOf_infinityOf]
    · obtain ⟨q, _, _, ⟨_, he⟩ | ⟨_, he⟩⟩ := encodeF64_of_exponent_between x (by omega) (by omega)
      · rw [he, signOf_packNat]
      · rw [he, signOf_packNat]

theorem isInf_iff_low15 (p : Pattern16) : isInf p = true ↔ p.toNat % 2 ^ 15 = 15 * 2048 := by
  rw [isInf_iff, field_eq_iff _ (by decide), field_eq_iff _ (by decide), exponentOf_toNat, fractionOf_toNat]
  omega

theorem isFinite_iff_low15 (p : Pattern16) : isFinite p = true ↔ p.toNat % 2 ^ 15 < 15 * 2048 := by
  rw [isFinite_iff, ne_eq, field_eq_iff _ (by decide), exponentOf_toNat]
  omega

/-- In the last binade the significand carries exactly from the threshold on, whose tie is even (R94). -/
theorem carries_iff {n q u : Nat} (hu : 0 < u) (hq : IsNearestEven n (2 * u) q) (hq4096 : q ≤ 4096) :
    q = 4096 ↔ 8191 * u ≤ n := by
  obtain ⟨hup, hdown, htie⟩ := hq
  constructor
  · rintro rfl
    omega
  · intro hge
    by_contra hne
    rcases Nat.lt_or_eq_of_le (show q ≤ 4095 by omega) with hlt | rfl
    · have := Nat.mul_le_mul_right (2 * u) (show 2 * q + 1 ≤ 8189 by omega)
      omega
    · have := htie (.inl (by omega))
      omega

/-- `255.96875` lies in the binade of exponent field 1030 (R94). -/
theorem overflow_threshold_bounds : 2 ^ 1081 ≤ 8191 * 2 ^ 1069 ∧ 8191 * 2 ^ 1069 ≤ 2 ^ 1082 := by
  have hlow : 1081 = 12 + 1069 := rfl
  have hhigh : 1082 = 13 + 1069 := rfl
  rw [hlow, hhigh, pow_add, pow_add]
  exact ⟨Nat.mul_le_mul_right _ (by decide), Nat.mul_le_mul_right _ (by decide)⟩

/-- Below the last binade nothing carries into the infinity, in it the carry does, and above it R88 saturates. -/
theorem isInf_encodeF64_iff (x : F64) (hfin : f64IsFinite x = true) :
    isInf (encodeF64 x) = true ↔ 8191 * 2 ^ 1069 ≤ f64Magnitude x := by
  have hmag := f64Magnitude_lt x
  have below_last_binade (h : f64Exponent x ≤ 1029) : ¬ 8191 * 2 ^ 1069 ≤ f64Magnitude x :=
    not_le.2 ((hmag.trans_le (pow_le_pow_right₀ one_le_two (by omega))).trans_le overflow_threshold_bounds.1)
  rw [isInf_iff_low15]
  rcases low15_encodeF64_cases x hfin with
    ⟨hle, q, _, hlow15⟩ | ⟨⟨_, hhi⟩, q, hq, hq2048, hq4096, hlow15⟩ | ⟨hge, hlow15⟩
  · exact iff_of_false (by omega) (below_last_binade (by omega))
  · rcases Nat.lt_or_eq_of_le hhi with hlt | heq
    · exact iff_of_false (by omega) (below_last_binade (by omega))
    · have hcarry : (encodeF64 x).toNat % 2 ^ 15 = 15 * 2048 ↔ q = 4096 := by omega
      have hunit : 40 + f64Exponent x = 1069 + 1 := by omega
      rw [hunit, pow_succ'] at hq
      rw [hcarry]
      exact carries_iff (pow_pos two_pos _) hq hq4096
  · have hlarge : 2 ^ 1082 ≤ 2 ^ (51 + f64Exponent x) := pow_le_pow_right₀ one_le_two (by omega)
    exact iff_of_true hlow15 ((overflow_threshold_bounds.2.trans hlarge).trans (le_f64Magnitude x (by omega)))

/-- Settles O57, by the binade of the operand. -/
theorem encodeOverflowThreshold : Obligations.EncodeOverflowThreshold := by
  intro x hfin
  rw [isInf_encodeF64_iff x hfin]

/-! Order (R172). -/

theorem f64Exponent_le_of_f64Magnitude_le {x y : F64} (h : f64Magnitude x ≤ f64Magnitude y) :
    f64Exponent x ≤ f64Exponent y := by
  by_cases h0 : f64Exponent x = 0
  · omega
  · exact (two_pow_le_f64Magnitude_iff y (by omega)).1 ((le_f64Magnitude x h0).trans h)

/-- ENCODE's low 15 bits grow with the magnitude: in one binade by the rounding, else the binades keep them apart. -/
theorem low15_encodeF64_mono {x y : F64} (hx : f64IsFinite x = true) (hy : f64IsFinite y = true)
    (h : f64Magnitude x ≤ f64Magnitude y) : (encodeF64 x).toNat % 2 ^ 15 ≤ (encodeF64 y).toNat % 2 ^ 15 := by
  have hexp := f64Exponent_le_of_f64Magnitude_le h
  have hmax := low15_encodeF64_le x hx
  rcases low15_encodeF64_cases y hy with ⟨_, r, hr, hylow⟩ | ⟨⟨_, _⟩, r, hr, _, _, hylow⟩ | ⟨_, hylow⟩
  · rcases low15_encodeF64_cases x hx with ⟨_, q, hq, hxlow⟩ | ⟨⟨_, _⟩, _⟩ | ⟨_, _⟩
    · have := isNearestEven_mono sefUnit_pos hq hr h
      omega
    · omega
    · omega
  · rcases low15_encodeF64_cases x hx with ⟨_, q, _, hxlow⟩ | ⟨⟨_, _⟩, q, hq, _, _, hxlow⟩ | ⟨_, _⟩
    · omega
    · rcases Nat.lt_or_eq_of_le hexp with hlt | heq
      · omega
      · rw [← heq] at hr
        have := isNearestEven_mono (pow_pos two_pos _) hq hr h
        omega
    · omega
  · omega

theorem low15_encodeF64_of_zero {x : F64} (h : f64Magnitude x = 0) : (encodeF64 x).toNat % 2 ^ 15 = 0 := by
  have h0 : f64Exponent x = 0 := by
    by_contra hne
    have := (Nat.two_pow_pos _).trans_le (le_f64Magnitude x hne)
    omega
  rw [encodeF64_of_exponent_zero x h0]
  exact low15_packNat _ (by decide) (by decide)

theorem orderKey_eq (p : Pattern16) : orderKey p = signed (signOf p) (p.toNat % 2 ^ 15) := by
  rw [orderKey, Laws.toNat_slice, Nat.pow_zero, Nat.div_one]

/-- Order of signed magnitudes: of equal sign by magnitude, of opposite sign the positive above unless both are zero. -/
theorem signed_le_signed_iff {s s' : BitVec 1} {m n : Nat} :
    signed s m ≤ signed s' n ↔ (s = 0#1 ∧ s' = 0#1 ∧ m ≤ n) ∨ (s = 1#1 ∧ s' = 1#1 ∧ n ≤ m) ∨
      (s = 1#1 ∧ s' = 0#1) ∨ (m = 0 ∧ n = 0) := by
  rcases bit_cases s with rfl | rfl
  · rcases bit_cases s' with rfl | rfl
    · simp [signed]; omega
    · simp [signed]; omega
  · rcases bit_cases s' with rfl | rfl
    · simp [signed]
    · simp [signed]; omega

/-- Settles O26: on either side of zero ENCODE keeps the order of the magnitudes, and it keeps sign and zeros. -/
theorem encodeIsMonotone : Obligations.EncodeIsMonotone := by
  intro x y hx hy hle
  rw [f64Value, f64Value, signed_le_signed_iff] at hle
  rw [orderKey_eq, orderKey_eq, signOf_encodeF64 x hx, signOf_encodeF64 y hy, signed_le_signed_iff]
  rcases hle with ⟨hsx, hsy, h⟩ | ⟨hsx, hsy, h⟩ | hs | ⟨hx0, hy0⟩
  · exact .inl ⟨hsx, hsy, low15_encodeF64_mono hx hy h⟩
  · exact .inr (.inl ⟨hsx, hsy, low15_encodeF64_mono hy hx h⟩)
  · exact .inr (.inr (.inl hs))
  · exact .inr (.inr (.inr ⟨low15_encodeF64_of_zero hx0, low15_encodeF64_of_zero hy0⟩))

/-! Nearness (R95). -/

theorem natAbs_signed_sub_signed (s : BitVec 1) (m n : Nat) : (signed s m - signed s n).natAbs = gap n m := by
  rcases bit_cases s with rfl | rfl
  · simp [signed, gap]; omega
  · simp [signed, gap]; omega

/-- Values are at least as far apart as their magnitudes. -/
theorem gap_le_natAbs_signed_sub (s s' : BitVec 1) (m n : Nat) : gap n m ≤ (signed s m - signed s' n).natAbs := by
  by_cases hs : s = s'
  · rw [hs, natAbs_signed_sub_signed]
  · rw [signed_of_ne hs, gap]
    unfold signed
    split <;> omega

/-- A bound of 2047.5 units, the tie between the largest subnormal and the smallest normal (R95), in halves of the unit. -/
theorem le_clamp_tie_iff {n tie u : Nat} (htie : 2 * tie = 4095 * u) : n ≤ tie ↔ 2 * n ≤ 4095 * u := by
  omega

/-- At or below that tie the clamp is no farther than the nearest integer. -/
theorem gap_min_le {n q u : Nat} (hn : 2 * n ≤ 4095 * u) : gap n (min q 2047 * u) ≤ gap n (q * u) := by
  rcases Nat.lt_or_ge q 2048 with hlt | hge
  · rw [min_eq_left (by omega)]
  · have := Nat.mul_le_mul_right u hge
    rw [min_eq_right (by omega), gap, gap]
    omega

/-- The binade's unit in units of `2^-17`. -/
theorem two_pow_mul_sefUnit {e : Nat} (he : 1017 ≤ e) : 2 ^ (e - 1016 - 1) * sefUnit = 2 ^ (40 + e) := by
  have hsum : e - 1016 - 1 + 1057 = 40 + e := by omega
  rw [sefUnit_eq_two_pow, ← pow_add, hsum]

/-- In a normal binade the magnitude of the result is the rounded significand in the binade's unit, carry or not. -/
theorem sefMagnitude_encodeF64_of_binade (x : F64) (hlo : 1017 ≤ f64Exponent x) (hhi : f64Exponent x ≤ 1030) :
    ∃ q, IsNearestEven (f64Magnitude x) (2 ^ (40 + f64Exponent x)) q ∧
      sefMagnitude (encodeF64 x) = q * 2 ^ (f64Exponent x - 1016 - 1) := by
  obtain ⟨q, hq, hq2048, ⟨hlt, he⟩ | ⟨rfl, he⟩⟩ := encodeF64_of_exponent_between x hlo hhi
  · have hlead : 2048 + (q - 2048) = q := by omega
    exact ⟨q, hq, by rw [he, sefMagnitude_packNat _ (by omega) (by omega) (by omega), hlead]⟩
  · have hexp : f64Exponent x - 1016 = f64Exponent x - 1016 - 1 + 1 := by omega
    refine ⟨4096, hq, ?_⟩
    rw [he, sefMagnitude_packNat _ (by omega) (by omega) (by omega), Nat.add_sub_cancel]
    conv_lhs => rw [hexp, pow_succ']
    ring

/-- Below the last binade's end and off the clamp band no magnitude of the grid is nearer than the result's. -/
theorem encodeF64_nearest (x : F64) (hlast : f64Exponent x ≤ 1030)
    (hband : f64Exponent x ≤ 1016 → 2 * f64Magnitude x ≤ 4095 * sefUnit) {g : Nat} (hg : OnGrid g) :
    gap (f64Magnitude x) (sefMagnitude (encodeF64 x) * sefUnit) ≤ gap (f64Magnitude x) (g * sefUnit) := by
  by_cases hle : f64Exponent x ≤ 1016
  · obtain ⟨q, hq, he⟩ := encodeF64_of_exponent_le x hle
    refine le_trans ?_ (gap_le_of_isNearestEven hq g)
    rw [he, sefMagnitude_packNat_zero _ (by omega)]
    exact gap_min_le (hband hle)
  · have hfirst : 1017 ≤ f64Exponent x := by omega
    obtain ⟨q, hq, hmag⟩ := sefMagnitude_encodeF64_of_binade x hfirst hlast
    have hlow : 2048 * (2 ^ (f64Exponent x - 1016 - 1) * sefUnit) ≤ f64Magnitude x := by
      have hsum : 11 + (40 + f64Exponent x) = 51 + f64Exponent x := by omega
      have h2048 : 2048 = 2 ^ 11 := rfl
      rw [two_pow_mul_sefUnit hfirst, h2048, ← pow_add, hsum]
      exact le_f64Magnitude x (by omega)
    rw [← two_pow_mul_sefUnit hfirst] at hq
    rw [hmag, Nat.mul_assoc]
    exact (gap_grid_of_isNearestEven sefUnit_pos (by omega) hq (.inr hlow) hg).1

/-- Above the tie the nearest integer is past the largest subnormal, so the clamp decides (D12). -/
theorem encodeF64_on_clamp_band (x : F64) (hlo : ¬ 2 * f64Magnitude x ≤ 4095 * sefUnit) (hhi : f64Exponent x ≤ 1016) :
    encodeF64 x = packNat (f64Sign x) 0 2047 := by
  obtain ⟨q, ⟨hup, _⟩, he⟩ := encodeF64_of_exponent_le x hhi
  have hq : 4095 < 2 * q + 1 := Nat.lt_of_mul_lt_mul_right ((not_le.1 hlo).trans_le hup)
  rw [he, min_eq_right (by omega)]

theorem isFinite_encodeF64 (x : F64) (hfin : f64IsFinite x = true) (hne : ¬ isInf (encodeF64 x) = true) :
    isFinite (encodeF64 x) = true := by
  rw [isInf_iff_low15] at hne
  rw [isFinite_iff_low15]
  exact lt_of_le_of_ne (low15_encodeF64_le x hfin) hne

/-- An operand that does not saturate lies below 256. -/
theorem f64Exponent_le_of_not_isInf (x : F64) (hfin : f64IsFinite x = true) (hne : ¬ isInf (encodeF64 x) = true) :
    f64Exponent x ≤ 1030 := by
  by_contra hge
  rw [encodeF64_of_exponent_ge x (by omega) ((f64IsFinite_iff x).1 hfin), isInf_infinityOf] at hne
  exact hne rfl

/-- Settles O25: the result has the operand's sign, so the magnitudes decide which pattern is nearest. -/
theorem encodeIsNearestButOnTheClampBand : Obligations.EncodeIsNearestButOnTheClampBand := by
  intro x hfin hlt
  rw [← not_le, ← encodeOverflowThreshold x hfin] at hlt
  refine ⟨isFinite_encodeF64 x hfin hlt, fun hlo hhi => ?_, fun hband g _ => ?_⟩
  · have habove : ¬ 2 * f64Magnitude x ≤ 4095 * sefUnit := (le_clamp_tie_iff (by decide +kernel)).not.1 (not_le.2 hlo)
    rw [f64Magnitude_lt_smallest_normal_iff] at hhi
    rw [encodeF64_on_clamp_band x habove hhi, signOf_packNat]
    exact ⟨sefMagnitude_packNat_zero _ (by decide), rfl⟩
  · rw [← not_lt (a := f64Magnitude x), f64Magnitude_lt_smallest_normal_iff] at hband
    have hbelow : 2 * f64Magnitude x ≤ 4095 * sefUnit ∨ ¬ f64Exponent x ≤ 1016 :=
      hband.imp_left (le_clamp_tie_iff (by decide +kernel)).1
    rw [sefValue, sefValue, f64Value, ← signed_mul, ← signed_mul, signOf_encodeF64 x hfin, natAbs_signed_sub_signed]
    have hnearest := encodeF64_nearest x (f64Exponent_le_of_not_isInf x hfin hlt)
      (fun hle => hbelow.resolve_right (not_not.2 hle)) (onGrid_sefMagnitude g)
    exact hnearest.trans (gap_le_natAbs_signed_sub _ _ _ _)

end Sys2Proof.Machine
end

section
/-! ENCODE under a sign flip, and the operands that DECODE after ENCODE gives back (R171, R173). -/

namespace Sys2Proof.Machine

/-! The flipped sign bit. -/

theorem signOf_negPattern (p : Pattern16) : signOf (negPattern p) = signOf p ^^^ 1#1 := by
  have top_bit : (0x8000#16).extractLsb' 15 1 = 1#1 := by decide
  rw [signOf, negPattern, BitVec.extractLsb'_xor, top_bit, signOf]

theorem negPattern_packNat (s : BitVec 1) (e f : Nat) : negPattern (packNat s e f) = packNat (s ^^^ 1#1) e f :=
  pattern_ext (by rw [signOf_negPattern, signOf_packNat, signOf_packNat])
    (by rw [exponentOf_negPattern, exponentOf_packNat, exponentOf_packNat])
    (by rw [fractionOf_negPattern, fractionOf_packNat, fractionOf_packNat])

theorem f64Sign_negF64 (x : F64) : f64Sign (negF64 x) = f64Sign x ^^^ 1#1 := by
  have top_bit : (0x8000000000000000#64).extractLsb' 63 1 = 1#1 := by decide
  rw [f64Sign, negF64, BitVec.extractLsb'_xor, top_bit, f64Sign]

theorem f64Exponent_negF64 (x : F64) : f64Exponent (negF64 x) = f64Exponent x := by
  have other_bits : (0x8000000000000000#64).extractLsb' 52 11 = 0#11 := by decide
  rw [f64Exponent, negF64, BitVec.extractLsb'_xor, other_bits, BitVec.xor_zero, f64Exponent]

theorem f64Fraction_negF64 (x : F64) : f64Fraction (negF64 x) = f64Fraction x := by
  have other_bits : (0x8000000000000000#64).extractLsb' 0 52 = 0#52 := by decide
  rw [f64Fraction, negF64, BitVec.extractLsb'_xor, other_bits, BitVec.xor_zero, f64Fraction]

/-- No path of ENCODE reads the sign but to pack it (R87 to R89). -/
theorem encodeFinite_flip (s : BitVec 1) (ex f : Nat) :
    encodeFinite (s ^^^ 1#1) ex f = negPattern (encodeFinite s ex f) := by
  rcases Nat.lt_or_ge 1016 ex with hlo | hle
  · rcases Nat.lt_or_ge ex 1031 with hhi | hge
    · rw [encodeFinite_of_between _ _ _ hlo (by omega), encodeFinite_of_between _ _ _ hlo (by omega)]
      simp only [encodeNormal, infinityOf, apply_ite negPattern, negPattern_packNat]
    · rw [encodeFinite_of_ge _ _ _ hge, encodeFinite_of_ge _ _ _ hge, infinityOf, infinityOf, negPattern_packNat]
  · rw [encodeFinite_of_le _ _ _ hle, encodeFinite_of_le _ _ _ hle, negPattern_packNat]

/-- Settles O27: a zero, an infinity or a number in between packs the operand's sign with fields that do not depend on it. -/
theorem encodeRespectsSign : Obligations.EncodeRespectsSign := by
  intro x hnan
  have hexp := f64Exponent_negF64 x
  have hfrac := f64Fraction_negF64 x
  by_cases he0 : f64Exponent x = 0
  · rw [encodeF64_of_exponent_zero _ (hexp.trans he0), encodeF64_of_exponent_zero x he0, f64Sign_negF64, zeroOf, zeroOf,
      negPattern_packNat]
  · by_cases he : f64Exponent x = 2047
    · have hf0 : f64Fraction x = 0 := by simpa [f64IsNaN, he] using hnan
      rw [encodeF64_of_infinity _ (hexp.trans he) (hfrac.trans hf0), encodeF64_of_infinity x he hf0, f64Sign_negF64,
        infinityOf, infinityOf, negPattern_packNat]
    · rw [encodeF64_of_normal _ (by rwa [hexp]) (by rwa [hexp]), encodeF64_of_normal x he0 he, hexp, hfrac, f64Sign_negF64,
        encodeFinite_flip]

/-! A binary64 is its three fields, and off zero its value. -/

theorem f64_ext {x y : F64} (hs : f64Sign x = f64Sign y) (he : f64Exponent x = f64Exponent y)
    (hf : f64Fraction x = f64Fraction y) : x = y := by
  have hs' := congrArg BitVec.toNat hs
  simp only [f64Sign, f64Exponent, f64Fraction, Laws.toNat_slice] at hs' he hf
  apply BitVec.eq_of_toNat_eq
  omega

/-- Magnitude determines exponent and fraction. -/
theorem f64_fields_of_f64Magnitude_eq {x y : F64} (h : f64Magnitude x = f64Magnitude y) :
    f64Exponent x = f64Exponent y ∧ f64Fraction x = f64Fraction y := by
  have he : f64Exponent x = f64Exponent y :=
    le_antisymm (f64Exponent_le_of_f64Magnitude_le h.le) (f64Exponent_le_of_f64Magnitude_le h.ge)
  refine ⟨he, ?_⟩
  by_cases h0 : f64Exponent x = 0
  · rwa [f64Magnitude_of_exponent_eq_zero x h0, f64Magnitude_of_exponent_eq_zero y (he ▸ h0)] at h
  · rw [f64Magnitude_of_exponent_ne_zero x h0, f64Magnitude_of_exponent_ne_zero y (he ▸ h0), he] at h
    exact Nat.add_left_cancel (Nat.eq_of_mul_eq_mul_right (Nat.two_pow_pos _) h)

theorem eq_of_f64Value_eq {x y : F64} (h : f64Value x = f64Value y) (hne : f64Magnitude x ≠ 0) : x = y := by
  have hmag : f64Magnitude x = f64Magnitude y := by
    rw [← signed_natAbs (f64Sign x) (f64Magnitude x), ← signed_natAbs (f64Sign y) (f64Magnitude y), ← f64Value,
      ← f64Value, h]
  have hsign : f64Sign x = f64Sign y := by
    rw [← signBit_signed (f64Sign x) hne, ← signBit_signed (f64Sign y) (hmag ▸ hne), ← f64Value, ← f64Value, h]
  obtain ⟨he, hf⟩ := f64_fields_of_f64Magnitude_eq hmag
  exact f64_ext hsign he hf

/-! What DECODE after ENCODE gives back (R171). -/

theorem f64IsZero_iff_magnitude (x : F64) : f64IsZero x = true ↔ f64Magnitude x = 0 := by
  by_cases h0 : f64Exponent x = 0
  · simp [f64IsZero, h0, f64Magnitude_of_exponent_eq_zero x h0]
  · have hpos := (Nat.two_pow_pos _).trans_le (le_f64Magnitude x h0)
    simp [f64IsZero, h0, hpos.ne']

theorem decodePattern_encodeF64_of_zero {x : F64} (h : f64IsZero x = true) : decodePattern (encodeF64 x) = x := by
  obtain ⟨he, hf⟩ : f64Exponent x = 0 ∧ f64Fraction x = 0 := by simpa [f64IsZero] using h
  rw [encodeF64_of_exponent_zero x he, zeroOf, decodePattern_of_zero _ (exponentOf_packNat _ _ _) (fractionOf_packNat _ _ _),
    signOf_packNat]
  exact f64_ext (f64Sign_packF64 _ _ _) ((f64Exponent_packF64 _ _ _).trans he.symm) ((f64Fraction_packF64 _ _ _).trans hf.symm)

theorem decodePattern_encodeF64_of_infinity {x : F64} (h : f64IsInf x = true) : decodePattern (encodeF64 x) = x := by
  obtain ⟨he, hf⟩ : f64Exponent x = 2047 ∧ f64Fraction x = 0 := by simpa [f64IsInf] using h
  rw [encodeF64_of_infinity x he hf, infinityOf,
    decodePattern_of_infinity _ (exponentOf_packNat _ _ _) (fractionOf_packNat _ _ _), signOf_packNat]
  exact f64_ext (f64Sign_packF64 _ _ _) ((f64Exponent_packF64 _ _ _).trans he.symm) ((f64Fraction_packF64 _ _ _).trans hf.symm)

/-- A nonzero value of a pattern is that pattern decoded, and ENCODE gives the pattern back (R110). -/
theorem decodePattern_encodeF64_of_value {x : F64} {p : Pattern16} (hp : isFinite p = true)
    (hvalue : f64Value x = sefValue p * sefUnit) (hne : f64Magnitude x ≠ 0) : decodePattern (encodeF64 x) = x := by
  obtain ⟨_, _, hdecoded, _⟩ := decodeIsExact p hp
  have hx : x = decodePattern p := eq_of_f64Value_eq (hvalue.trans hdecoded.symm) hne
  rw [hx, encodeF64_decodePattern p (isNaN_of_isFinite hp)]

/-- What a decoded pattern that is no NaN is: an infinity, or finite with the value of a finite pattern. -/
theorem decodePattern_cases {p : Pattern16} (h : f64IsNaN (decodePattern p) = false) :
    f64IsInf (decodePattern p) = true ∨ (f64IsFinite (decodePattern p) = true ∧
      ∃ q : Pattern16, isFinite q = true ∧ f64Value (decodePattern p) = sefValue q * sefUnit) := by
  have hn : isNaN p = false := Bool.eq_false_iff.2 fun hn => by
    rw [decodePattern_of_nan p hn, f64IsNaN_decNan] at h
    cases h
  cases hi : isInf p with
  | true =>
    obtain ⟨he, hf⟩ := (isInf_iff p).1 hi
    rw [decodePattern_of_infinity p he hf]
    exact .inl (by simp [f64IsInf])
  | false =>
    have hp := isFinite_of_not_nan_not_inf hn hi
    obtain ⟨hfin, _, hvalue, _⟩ := decodeIsExact p hp
    exact .inr ⟨hfin, p, hp, hvalue⟩

/-- Settles O33: whatever comes back is a decoded pattern, and every value of a pattern comes back since ENCODE undoes DECODE. -/
theorem decodeAfterEncodeIsIdentityOnRepresentables : Obligations.DecodeAfterEncodeIsIdentityOnRepresentables := by
  intro x hnan
  constructor
  · intro h
    rw [← h] at hnan
    have hcases := decodePattern_cases hnan
    rw [h] at hcases
    exact hcases.imp_right .inr
  · rintro (hinf | hzero | ⟨_, p, hp, hvalue⟩)
    · exact decodePattern_encodeF64_of_infinity hinf
    · exact decodePattern_encodeF64_of_zero hzero
    · by_cases hzero : f64IsZero x = true
      · exact decodePattern_encodeF64_of_zero hzero
      · exact decodePattern_encodeF64_of_value hp hvalue (by rwa [f64IsZero_iff_magnitude] at hzero)

end Sys2Proof.Machine
end

section
/-! The normalised mantissa of ADD against the exact sum: rounding the one is rounding the other, and in the lowest binade
nothing is rounded (43_adder.md R142 to R152, R160). -/

namespace Sys2Proof.Machine

/-! Lost bits and cancellation exclude each other: a sum with bits below the unit of the larger operand is still large. -/

theorem two_pow_dvd_sefValue {p : Pattern16} {k : Nat} (hk : k ≤ effExponent p - 1) : ((2 ^ k : Nat) : Int) ∣ sefValue p := by
  rw [sefValue, sefMagnitude, signed_mul]
  exact Dvd.dvd.mul_left (Int.natCast_dvd_natCast.2 (Nat.pow_dvd_pow 2 hk)) _

theorem two_pow_dvd_exactSum {a b : Pattern16} {k : Nat} (ha : k ≤ effExponent a - 1) (hb : k ≤ effExponent b - 1) :
    2 ^ k ∣ (exactSum a b).natAbs :=
  Int.natCast_dvd.1 (dvd_add (two_pow_dvd_sefValue ha) (two_pow_dvd_sefValue hb))

theorem exactSum_comm (a b : Pattern16) : exactSum a b = exactSum b a := Int.add_comm _ _

theorem sub_le_natAbs_exactSum (a b : Pattern16) : sefMagnitude a - sefMagnitude b ≤ (exactSum a b).natAbs := by
  have ha : (sefValue a).natAbs = sefMagnitude a := signed_natAbs _ _
  have hb : (sefValue b).natAbs = sefMagnitude b := signed_natAbs _ _
  rw [exactSum]
  omega

/-- With exponents nine or more apart the larger operand outweighs the smaller. -/
theorem exactSum_large_of_far {a b : Pattern16} (h : effExponent b + 9 ≤ effExponent a) :
    2 ^ 10 * 2 ^ (effExponent a - 1) ≤ (exactSum a b).natAbs := by
  have hpos := effExponent_pos b
  have hlarge : 2048 * 2 ^ (effExponent a - 1) ≤ sefMagnitude a :=
    Nat.mul_le_mul_right _ (sig12_ge_of_effExponent (by omega))
  have hsmall : sefMagnitude b ≤ 4096 * 2 ^ (effExponent b - 1) := Nat.mul_le_mul_right _ (sig12_lt b).le
  have hunits : 2 ^ 9 * 2 ^ (effExponent b - 1) ≤ 2 ^ (effExponent a - 1) := by
    rw [← Nat.pow_add]
    exact Nat.pow_le_pow_right Nat.two_pos (by omega)
  have hsum := sub_le_natAbs_exactSum a b
  omega

/-- The sum with its guard bits is a multiple of the larger operand's unit, or it is `2^10` such units or more. -/
theorem exactSum_exact_or_large (a b : Pattern16) :
    2 ^ (max (effExponent a) (effExponent b) - 1) ∣ (exactSum a b).natAbs * 2 ^ 8 ∨
    2 ^ 10 * 2 ^ (max (effExponent a) (effExponent b) - 1) ≤ (exactSum a b).natAbs := by
  have by_order {a b : Pattern16} (h : effExponent b ≤ effExponent a) :
      2 ^ (effExponent a - 1) ∣ (exactSum a b).natAbs * 2 ^ 8 ∨
      2 ^ 10 * 2 ^ (effExponent a - 1) ≤ (exactSum a b).natAbs := by
    by_cases hfar : effExponent b + 9 ≤ effExponent a
    · exact .inr (exactSum_large_of_far hfar)
    · have hdvd := Nat.mul_dvd_mul_right (two_pow_dvd_exactSum (a := a) (b := b) (by omega) le_rfl) (2 ^ 8)
      rw [← Nat.pow_add] at hdvd
      exact .inl ((Nat.pow_dvd_pow 2 (by omega)).trans hdvd)
  rcases le_total (effExponent b) (effExponent a) with h | h
  · rw [max_eq_left h]
    exact by_order h
  · rw [max_eq_right h, exactSum_comm]
    exact by_order h

theorem combine_x (sa sb : BitVec 1) (al : Aligned) : (combine sa sb al).x = al.x := by
  rcases combine_cases sa sb al with ⟨_, he⟩ | ⟨_, _, he⟩ | ⟨_, _, he⟩ | ⟨_, _, he⟩
  all_goals rw [he]

theorem combined_x {a b : Pattern16} (ha : isFinite a = true) (hb : isFinite b = true) :
    (combined a b).x = max (effExponent a) (effExponent b) := by
  rw [combined, combine_x, align_eq_srs ha hb]

/-- After right normalisation: no bit was lost, or the mantissa has a leading bit high enough that left normalisation shifts by
six at most. -/
theorem rightNormalise_exact_or_large {a b : Pattern16} (ha : isFinite a = true) (hb : isFinite b = true) :
    2 ^ ((rightNormalise (combined a b)).x - 1) ∣ (exactSum a b).natAbs * 2 ^ 8 ∨
    2 ^ 18 ≤ (rightNormalise (combined a b)).m := by
  have ha14 := effExponent_le_of_finite a ha
  have hb14 := effExponent_le_of_finite b hb
  obtain ⟨s, x, hc, _, hx14, _⟩ := combined_eq_srs ha hb
  have hx := combined_x ha hb
  rcases rightNormalise_cases (combined a b) with ⟨_, he⟩ | ⟨hge, he⟩
  · rw [he, hc]
    rw [hc] at hx
    refine (exactSum_exact_or_large a b).imp (fun h => by rwa [← hx] at h) fun h => ?_
    rw [← hx] at h
    dsimp only at h ⊢
    rw [le_srs_iff _ (by omega) (by decide)]
    omega
  · have hhalf : 2 ^ 19 ≤ srs (combined a b).m 1 := (le_srs_iff _ (by decide) (by decide)).2 (by omega)
    rw [he]
    exact .inr (by dsimp only; omega)

/-! Left normalisation of a mantissa shifted with sticky. -/

/-- Rounding the mantissa, shifted right by `y` and left again by `n`, to its 12 bits is rounding the sum to the unit
`2^(y-n)`: either no bit was lost, or two bits or more are left below the 12. -/
theorem isNearestEven_leftShift {t y n : Nat} (hy : y < 64) (hn : n ≤ y) (h : 2 ^ y ∣ t * 2 ^ 8 ∨ n ≤ 6) (q : Nat) :
    IsNearestEven (srs (t * 2 ^ 8) y * 2 ^ n) (2 ^ 8) q ↔ IsNearestEven t (2 ^ (y - n)) q := by
  have hunguarded := isNearestEven_mul_iff (n := t) (d := 2 ^ (y - n)) (q := q) (c := 2 ^ 8) (by decide)
  rcases h with hdvd | hn6
  · have hback : srs (t * 2 ^ 8) y * 2 ^ n * 2 ^ (y - n) = t * 2 ^ 8 := by
      rw [srs_exact hy (Nat.mod_eq_zero_of_dvd hdvd), Nat.mul_assoc, ← Nat.pow_add, Nat.add_sub_of_le hn,
        Nat.div_mul_cancel hdvd]
    rw [← isNearestEven_mul_iff (Nat.two_pow_pos (y - n)), hback, Nat.mul_comm (2 ^ 8) (2 ^ (y - n)), hunguarded]
  · have hsplit : 2 ^ 8 = 2 ^ (8 - n) * 2 ^ n := by rw [← Nat.pow_add, Nat.sub_add_cancel (by omega)]
    have hunit : 2 ^ (y + (8 - n)) = 2 ^ (y - n) * 2 ^ 8 := by rw [← Nat.pow_add]; congr 1; omega
    conv_lhs => rw [hsplit]
    rw [isNearestEven_mul_iff (Nat.two_pow_pos n), ← hsplit, isNearestEven_srs _ _ hy (by omega), hunit, hunguarded]

/-- A leading bit at 19 puts the sum in the binade of the exponent. -/
theorem le_of_leftShift_ge {t y n : Nat} (hy : y ≤ 14) (hn : n ≤ y) (h : 2 ^ 19 ≤ srs (t * 2 ^ 8) y * 2 ^ n) :
    2048 * 2 ^ (y - n) ≤ t := by
  have hsplit : 2 ^ 19 = 2 ^ (19 - n) * 2 ^ n := by rw [← Nat.pow_add, Nat.sub_add_cancel (by omega)]
  have heven : 2 ^ (19 - n) = 2 * 2 ^ (18 - n) := by rw [← Nat.pow_succ']; congr 1; omega
  have hunit : 2 ^ (19 - n) * 2 ^ y = 2048 * 2 ^ (y - n) * 2 ^ 8 := by
    have h2048 : 2048 = 2 ^ 11 := rfl
    rw [h2048, ← Nat.pow_add, ← Nat.pow_add, ← Nat.pow_add]
    congr 1
    omega
  rw [hsplit] at h
  have hle := (le_srs_iff _ (by omega) (by omega)).1 (Nat.le_of_mul_le_mul_right h (Nat.two_pow_pos n))
  rw [hunit] at hle
  exact Nat.le_of_mul_le_mul_right hle (by decide)

/-- Shifted back to exponent 1 the mantissa is the sum itself with its guard bits. -/
theorem leftShift_all {t y : Nat} (hy : y < 64) (h : 2 ^ y ∣ t * 2 ^ 8 ∨ y ≤ 6) :
    srs (t * 2 ^ 8) y * 2 ^ y = t * 2 ^ 8 := by
  have hdvd : 2 ^ y ∣ t * 2 ^ 8 := h.elim id fun hy6 => Dvd.dvd.mul_left (Nat.pow_dvd_pow 2 (by omega)) t
  rw [srs_exact hy (Nat.mod_eq_zero_of_dvd hdvd), Nat.div_mul_cancel hdvd]

/-! What S6 hands on. -/

/-- The interim result is a normalised mantissa for a sum of magnitude `t`: in range, with its leading bit at 19 or at exponent 1,
rounding it rounds `t` to the unit of its exponent, and it locates `t` (R149, R159, R160). -/
structure Normalises (t : Nat) (r : Interim) : Prop where
  one_le_x : 1 ≤ r.x
  x_le : r.x ≤ 15
  m_lt : r.m < 2 ^ 20
  leading : 2 ^ 19 ≤ r.m ∨ r.x = 1
  nearest_iff : ∀ q, IsNearestEven r.m (2 ^ 8) q ↔ IsNearestEven t (2 ^ (r.x - 1)) q
  binade : 2 ^ 19 ≤ r.m → 2048 * 2 ^ (r.x - 1) ≤ t
  lowest : r.x = 1 → r.m = t * 2 ^ 8

theorem normalises_normalised {a b : Pattern16} (ha : isFinite a = true) (hb : isFinite b = true) :
    Normalises (exactSum a b).natAbs (normalised a b) := by
  have hexact := rightNormalise_exact_or_large ha hb
  obtain ⟨s, x, hr, hm, hx, hx15, _⟩ := rightNormalise_combined ha hb
  rw [hr] at hexact
  obtain ⟨n, hn, he, hlt, hlead⟩ := leftNormalise_spec ⟨s, x, srs ((exactSum a b).natAbs * 2 ^ 8) (x - 1)⟩ hx hm
  dsimp only at hexact hn he hlt hlead
  have hexact' : 2 ^ (x - 1) ∣ (exactSum a b).natAbs * 2 ^ 8 ∨ n ≤ 6 := hexact.imp_right fun hlarge => by
    by_contra hn6
    have hpow : 2 ^ 7 ≤ 2 ^ n := Nat.pow_le_pow_right Nat.two_pos (by omega)
    have := Nat.mul_le_mul hlarge hpow
    omega
  have hunit : x - n - 1 = x - 1 - n := by omega
  rw [normalised, hr, he]
  refine ⟨by dsimp only; omega, by dsimp only; omega, hlt, hlead, fun q => ?_, fun h => ?_, fun h => ?_⟩
  · dsimp only
    rw [hunit]
    exact isNearestEven_leftShift (by omega) (by omega) hexact' q
  · dsimp only at h ⊢
    rw [hunit]
    exact le_of_leftShift_ge (by omega) (by omega) h
  · dsimp only at h ⊢
    obtain rfl : n = x - 1 := by omega
    exact leftShift_all (by omega) hexact'

theorem normalised_s (a b : Pattern16) : (normalised a b).s = (combined a b).s := by
  rw [normalised, leftNormalise]
  rcases rightNormalise_cases (combined a b) with ⟨_, he⟩ | ⟨_, he⟩
  · rw [he]
  · rw [he]

/-! Ranges (R131, R142, R149). -/

/-- The widened mantissa has 12 kept bits above eight zeros (R141). -/
theorem widened_le (p : Pattern16) : widened p ≤ 0xFFF00 := by
  have := sig12_lt p
  rw [widened_eq]
  omega

theorem align_le {a b : Pattern16} (ha : isFinite a = true) (hb : isFinite b = true) :
    (align (effExponent a) (widened a) (effExponent b) (widened b)).ma ≤ 0xFFF00 ∧
    (align (effExponent a) (widened a) (effExponent b) (widened b)).mb ≤ 0xFFF00 := by
  have ha14 := effExponent_le_of_finite a ha
  have hb14 := effExponent_le_of_finite b hb
  have hwa := widened_le a
  have hwb := widened_le b
  rcases align_cases (effExponent a) (widened a) (effExponent b) (widened b) with ⟨_, he⟩ | ⟨_, he⟩
  · rw [he]; exact ⟨hwa, (srs_le (by omega)).trans hwb⟩
  · rw [he]; exact ⟨(srs_le (by omega)).trans hwa, hwb⟩

theorem combined_le {a b : Pattern16} (ha : isFinite a = true) (hb : isFinite b = true) :
    (combined a b).m ≤ 0x1FFE00 := by
  obtain ⟨hma, hmb⟩ := align_le ha hb
  rcases combine_cases (signOf a) (signOf b) (align (effExponent a) (widened a) (effExponent b) (widened b)) with
    ⟨_, he⟩ | ⟨_, _, he⟩ | ⟨_, _, he⟩ | ⟨_, _, he⟩
  all_goals
    rw [combined, he]
    dsimp only
    omega

theorem one_le_rightNormalise_x {t : Interim} (h : 1 ≤ t.x) : 1 ≤ (rightNormalise t).x := by
  rcases rightNormalise_cases t with ⟨_, he⟩ | ⟨_, he⟩
  · rwa [he]
  · rw [he]
    exact Nat.le_add_left _ _

/-- Only a mantissa shifted right has exponent 15, so it is at most the largest combined mantissa halved. -/
theorem normalised_le_of_fifteen {a b : Pattern16} (ha : isFinite a = true) (hb : isFinite b = true)
    (h : (normalised a b).x = 15) : (normalised a b).m ≤ 0xFFF00 := by
  have hcombined := combined_le ha hb
  have hx14 : (combined a b).x ≤ 14 := by
    rw [combined_x ha hb]
    exact max_le (effExponent_le_of_finite a ha) (effExponent_le_of_finite b hb)
  have hx1 : 1 ≤ (combined a b).x := by
    rw [combined_x ha hb]
    exact le_max_of_le_left (effExponent_pos a)
  obtain ⟨n, hn, he, _, _⟩ := leftNormalise_spec (rightNormalise (combined a b)) (one_le_rightNormalise_x hx1)
    (rightNormalise_lt (combined a b) (by omega))
  rw [normalised, he] at h ⊢
  rcases rightNormalise_cases (combined a b) with ⟨_, hr⟩ | ⟨_, hr⟩
  · rw [hr] at h
    dsimp only at h
    omega
  · rw [hr] at h ⊢
    dsimp only at h ⊢
    obtain rfl : n = 0 := by omega
    rw [Nat.pow_zero, Nat.mul_one, srs_le_iff _ (by decide) (by decide)]
    omega

/-- Rounding carries at most to exponent 15 and never past twelve bits (R152, R160). -/
theorem roundGRS_normalised_le {a b : Pattern16} (ha : isFinite a = true) (hb : isFinite b = true) :
    (roundGRS (normalised a b)).m ≤ 4095 ∧ (roundGRS (normalised a b)).x ≤ 15 := by
  have hn := normalises_normalised ha hb
  have hx15 := hn.x_le
  obtain ⟨q, ⟨_, hdown, _⟩, _, ⟨hlt, he⟩ | ⟨rfl, he⟩⟩ := roundGRS_cases (normalised a b) hn.m_lt
  · rw [he]
    exact ⟨by dsimp only; omega, hx15⟩
  · have hne : (normalised a b).x ≠ 15 := fun h => by
      have := normalised_le_of_fifteen ha hb h
      omega
    rw [he]
    exact ⟨by dsimp only; omega, by dsimp only; omega⟩

/-- Settles O49: each stage's range follows from the one before. -/
theorem adderSignalsStayInRange : Obligations.AdderSignalsStayInRange := by
  intro a b ha hb _ _
  have ha14 := effExponent_le_of_finite a ha
  have hpos := effExponent_pos b
  have hn := normalises_normalised ha hb
  obtain ⟨hma, hmb⟩ := align_le ha hb
  refine ⟨⟨widened_le a, ?_⟩, ⟨effExponent_pos a, ha14⟩, by omega, hma, hmb, combined_le ha hb, hn.m_lt,
    ⟨hn.one_le_x, hn.x_le⟩, hn.leading, roundGRS_normalised_le ha hb⟩
  rw [widened_eq]
  exact Nat.mul_mod_left _ _

/-! Exponent 1 and zero (R160). -/

/-- The rounded result of a normalised mantissa: the nearest significand to the sum, in the form of the grid, with the carry in
the exponent. -/
theorem roundGRS_of_normalises {t : Nat} {n : Interim} (h : Normalises t n) :
    ∃ q, IsNearestEven t (2 ^ (n.x - 1)) q ∧ GridForm (roundGRS n).m (roundGRS n).x ∧
      (roundGRS n).m * 2 ^ ((roundGRS n).x - 1) = q * 2 ^ (n.x - 1) ∧
      (q % 2 = 0 → (roundGRS n).m % 2 = 0) ∧ (roundGRS n).s = n.s := by
  have hx := h.one_le_x
  obtain ⟨q, hq, _, hcases⟩ := roundGRS_cases n h.m_lt
  refine ⟨q, (h.nearest_iff q).1 hq, ?_⟩
  rcases hcases with ⟨hlt, he⟩ | ⟨rfl, he⟩
  · rw [he]
    refine ⟨⟨hx, hlt, ?_⟩, rfl, id, rfl⟩
    obtain ⟨hup, _⟩ := hq
    exact h.leading.imp_left fun hlead => by dsimp only; omega
  · have hcarry : n.x + 1 - 1 = n.x - 1 + 1 := by omega
    rw [he]
    dsimp only
    refine ⟨⟨Nat.le_add_left _ _, by decide, .inl le_rfl⟩, ?_, fun _ => rfl, rfl⟩
    rw [hcarry]
    ring

theorem mul_two_pow_eq_zero_iff (m k : Nat) : m * 2 ^ k = 0 ↔ m = 0 :=
  mul_eq_zero_iff_right (pow_ne_zero k two_ne_zero)

theorem roundGRS_m_eq_zero_iff {t : Nat} {n : Interim} (h : Normalises t n) : (roundGRS n).m = 0 ↔ t = 0 := by
  obtain ⟨q, ⟨hup, hdown, _⟩, _, hvalue, _⟩ := roundGRS_of_normalises h
  have hunit : 0 < 2 ^ (n.x - 1) := Nat.two_pow_pos _
  have hm : (roundGRS n).m = 0 ↔ q = 0 := by
    rw [← mul_two_pow_eq_zero_iff (roundGRS n).m ((roundGRS n).x - 1), hvalue, mul_two_pow_eq_zero_iff]
  rw [hm]
  constructor
  · rintro rfl
    rcases h.leading with hlead | hx
    · have := h.binade hlead
      omega
    · rw [hx] at hup
      omega
  · rintro rfl
    by_contra hq
    have := Nat.mul_le_mul_right (2 ^ (n.x - 1)) (show 2 ≤ 2 * q by omega)
    omega

theorem sefMagnitude_eq_zero_iff (p : Pattern16) : sefMagnitude p = 0 ↔ isZero p = true := by
  rw [sefMagnitude, mul_two_pow_eq_zero_iff, isZero_iff]
  by_cases he : exponentOf p = 0#4
  · rw [sig12, if_neg (not_not.2 he), field_eq_iff (fractionOf p) (by decide)]
    simp [he]
  · have := sig12_ge_of_normal p he
    simp only [he, false_and, iff_false]
    omega

theorem sefMagnitude_ne_zero {p : Pattern16} (h : isZero p = false) : sefMagnitude p ≠ 0 := by
  rw [ne_eq, sefMagnitude_eq_zero_iff, h]
  exact Bool.false_ne_true

/-- The combined mantissa is zero exactly on cancellation of equal aligned mantissas: the first is never zero. -/
theorem combined_m_eq_zero_iff {a b : Pattern16} (ha : isFinite a = true) (hb : isFinite b = true)
    (hza : isZero a = false) :
    (combined a b).m = 0 ↔ signOf a ≠ signOf b ∧
      (align (effExponent a) (widened a) (effExponent b) (widened b)).ma =
        (align (effExponent a) (widened a) (effExponent b) (widened b)).mb := by
  have hma : (align (effExponent a) (widened a) (effExponent b) (widened b)).ma ≠ 0 := by
    have := sefMagnitude_ne_zero hza
    rw [align_eq_srs ha hb]
    exact srs_pos (by omega)
  rw [combined]
  generalize align (effExponent a) (widened a) (effExponent b) (widened b) = al at *
  rcases combine_cases (signOf a) (signOf b) al with ⟨hs, he⟩ | ⟨hs, hlt, he⟩ | ⟨hs, hlt, he⟩ | ⟨hs, heq, he⟩
  · rw [he]; simp only [hs, ne_eq, not_true_eq_false, false_and, iff_false]; omega
  · rw [he]; simp only [ne_eq, hs, not_false_eq_true, true_and]; omega
  · rw [he]; simp only [ne_eq, hs, not_false_eq_true, true_and]; omega
  · rw [he]; simp only [ne_eq, hs, not_false_eq_true, true_and, heq]

theorem combined_m_eq_zero_iff_exactSum {a b : Pattern16} (ha : isFinite a = true) (hb : isFinite b = true) :
    (combined a b).m = 0 ↔ exactSum a b = 0 := by
  obtain ⟨s, x, hc, _⟩ := combined_eq_srs ha hb
  rw [hc]
  constructor
  · intro h
    by_contra hne
    exact srs_pos (by omega) h
  · intro h
    rw [h]
    exact srs_zero _

/-- Settles O50: at exponent 1 the mantissa is the sum with eight zeros below it, and a zero significand is a zero sum, which is
a zero combined mantissa. -/
theorem lowestBinadeIsExact : Obligations.LowestBinadeIsExact := by
  intro a b ha hb hza _
  have hn := normalises_normalised ha hb
  refine ⟨fun hx => ?_, ?_, (roundGRS_normalised_le ha hb).2⟩
  · have hx1 : (normalised a b).x = 1 := by
      have hpos := hn.one_le_x
      obtain ⟨q, _, _, ⟨_, he⟩ | ⟨_, he⟩⟩ := roundGRS_cases (normalised a b) hn.m_lt
      · rwa [he] at hx
      · rw [he] at hx
        dsimp only at hx
        omega
    rw [hn.lowest hx1]
    exact Nat.mul_mod_left _ _
  · rw [roundGRS_m_eq_zero_iff hn, Int.natAbs_eq_zero, ← combined_m_eq_zero_iff_exactSum ha hb,
      combined_m_eq_zero_iff ha hb hza]

end Sys2Proof.Machine
end

section
/-! ADD of finite patterns is the exact sum rounded (43_adder.md R159), and what follows: exact sums and gradual underflow
(R178, R180). -/

namespace Sys2Proof.Machine

/-! Rounding on the grid. -/

/-- The nearest multiple of the unit, in the form of the grid, is the sum rounded on the grid. -/
theorem roundsTo_of_isNearestEven {t q x sig y : Nat} (hx : 1 ≤ x) (hq : IsNearestEven t (2 ^ (x - 1)) q)
    (hlow : x = 1 ∨ 2048 * 2 ^ (x - 1) ≤ t) (hgrid : GridForm sig y) (hvalue : sig * 2 ^ (y - 1) = q * 2 ^ (x - 1))
    (heven : q % 2 = 0 → sig % 2 = 0) : RoundsTo t (sig * 2 ^ (y - 1)) := by
  refine ⟨⟨sig, y, hgrid, rfl⟩, fun g hg => ?_⟩
  obtain ⟨hle, htie⟩ := gap_grid_of_isNearestEven (u := 1) one_pos hx (by rwa [Nat.mul_one]) (by rwa [Nat.mul_one]) hg
  rw [Nat.mul_one, Nat.mul_one] at hle htie
  rw [hvalue]
  exact ⟨hle, fun heq hne => ⟨sig, y, hgrid, heven (htie heq hne), hvalue.symm⟩⟩

/-- A magnitude on the grid rounds to itself only. -/
theorem eq_of_roundsTo_of_onGrid {t r : Nat} (h : RoundsTo t r) (ht : OnGrid t) : r = t := by
  have hle := (h.2 t ht).1
  unfold gap at hle
  omega

theorem roundsTo_self {t : Nat} (ht : OnGrid t) : RoundsTo t t := by
  refine ⟨ht, fun g _ => ⟨?_, fun heq hne => ?_⟩⟩
  · unfold gap; omega
  · unfold gap at heq; omega

/-- Every magnitude below 4096 units is on the grid, at exponent 1. -/
theorem onGrid_of_lt {t : Nat} (h : t < 4096) : OnGrid t := ⟨t, 1, ⟨le_rfl, h, .inr rfl⟩, by simp⟩

theorem ne_zero_of_roundsTo {t r : Nat} (h : RoundsTo t r) (ht : t ≠ 0) : r ≠ 0 := by
  have hle := (h.2 1 (onGrid_of_lt (by decide))).1
  unfold gap at hle
  omega

/-! S8 of a significand in the form of the grid (R153 to R156). -/

/-- A 12-bit significand and its exponent, packed: the leading 1 is implicit in a normal and absent in a subnormal. -/
theorem finalise_of_gridForm (s : BitVec 1) {m x : Nat} (h : GridForm m x) (hx15 : x < 15) :
    isFinite (finalise ⟨s, x, m⟩) = true ∧ sefMagnitude (finalise ⟨s, x, m⟩) = m * 2 ^ (x - 1) ∧
    signOf (finalise ⟨s, x, m⟩) = s := by
  obtain ⟨hx, hm, hlead⟩ := h
  rcases finalise_cases ⟨s, x, m⟩ with ⟨rfl, he⟩ | ⟨_, hov, _⟩ | ⟨_, hx1, hsub, he⟩ | ⟨_, _, hnorm, he⟩
  · rw [he, zeroOf, sefMagnitude_packNat_zero s (by decide), Nat.zero_mul]
    exact ⟨isFinite_packNat s 0 (by decide), rfl, signOf_packNat _ _ _⟩
  · dsimp only at hov
    omega
  · dsimp only at hx1 hsub he
    rw [he, sefMagnitude_packNat_zero s hsub, hx1, Nat.sub_self, Nat.pow_zero, Nat.mul_one]
    exact ⟨isFinite_packNat s m (by decide), rfl, signOf_packNat _ _ _⟩
  · dsimp only at hnorm he
    have hcut : packNat s x m = packNat s x (m - 2048) := by
      have hfield : BitVec.ofNat 11 m = BitVec.ofNat 11 (m - 2048) := BitVec.eq_of_toNat_eq (by
        rw [BitVec.toNat_ofNat, BitVec.toNat_ofNat]; omega)
      rw [packNat, packNat, hfield]
    have hsig : 2048 + (m - 2048) = m := by omega
    rw [he, hcut, sefMagnitude_packNat s hx (by omega) (by omega), hsig]
    exact ⟨isFinite_packNat s _ hx15, rfl, signOf_packNat _ _ _⟩

/-- In the form of the grid the exponent tells whether the magnitude is 256 or more. -/
theorem two_pow_25_le_iff {m x : Nat} (h : GridForm m x) (hx15 : x ≤ 15) : 2 ^ 25 ≤ m * 2 ^ (x - 1) ↔ x = 15 := by
  obtain ⟨hx, hm, hlead⟩ := h
  constructor
  · intro hge
    by_contra hne
    have hpow : 2 ^ (x - 1) ≤ 2 ^ 13 := Nat.pow_le_pow_right Nat.two_pos (by omega)
    have := Nat.mul_le_mul (show m ≤ 4095 by omega) hpow
    omega
  · rintro rfl
    have := Nat.mul_le_mul_right (2 ^ (15 - 1)) (show 2048 ≤ m by omega)
    omega

/-! The full path, and ADD of any finite patterns. -/

/-- What a finite sum `t` gives as pattern `p`: its sign, and its rounded magnitude or an infinity (R159). -/
def RoundedSum (t : Int) (p : Pattern16) : Prop :=
  ∃ r, RoundsTo t.natAbs r ∧ signOf p = signBit t ∧ (2 ^ 25 ≤ r → isInf p = true) ∧
    (r < 2 ^ 25 → isFinite p = true ∧ sefMagnitude p = r)

theorem roundedSum_addFinite {a b : Pattern16} (ha : isFinite a = true) (hb : isFinite b = true)
    (hne : exactSum a b ≠ 0) : RoundedSum (exactSum a b) (addFinite a b) := by
  have hn := normalises_normalised ha hb
  have hx15 := (roundGRS_normalised_le ha hb).2
  have hsign : (normalised a b).s = signBit (exactSum a b) := by
    obtain ⟨s, x, hc, _, _, hs⟩ := combined_eq_srs ha hb
    rw [normalised_s, hc]
    exact hs hne
  have hm := (roundGRS_m_eq_zero_iff hn).not.2 (Int.natAbs_ne_zero.2 hne)
  obtain ⟨q, hq, hgrid, hvalue, heven, hs⟩ := roundGRS_of_normalises hn
  have hlow : (normalised a b).x = 1 ∨ 2048 * 2 ^ ((normalised a b).x - 1) ≤ (exactSum a b).natAbs :=
    hn.leading.symm.imp_right hn.binade
  refine ⟨_, roundsTo_of_isNearestEven hn.one_le_x hq hlow hgrid hvalue heven, ?_⟩
  have hbound := two_pow_25_le_iff hgrid hx15
  rw [← hsign, ← hs, addFinite]
  generalize roundGRS (normalised a b) = t at *
  by_cases hx : t.x = 15
  · rw [finalise_of_overflow t.s hm hx.ge]
    exact ⟨signOf_infinityOf _, fun _ => isInf_infinityOf _, fun hlt => absurd (hbound.2 hx) (by omega)⟩
  · obtain ⟨hfin, hmag, hsig⟩ := finalise_of_gridForm t.s hgrid (by omega)
    exact ⟨hsig, fun hge => absurd (hbound.1 hge) hx, fun _ => ⟨hfin, hmag⟩⟩

/-- A finite pattern is its own value rounded. -/
theorem roundedSum_self {p : Pattern16} (hp : isFinite p = true) (hne : sefValue p ≠ 0) : RoundedSum (sefValue p) p := by
  have hmag : (sefValue p).natAbs = sefMagnitude p := signed_natAbs _ _
  have hle := sefMagnitude_le_of_finite hp
  rw [RoundedSum, hmag]
  refine ⟨_, roundsTo_self (onGrid_sefMagnitude p), ?_, by omega, fun _ => ⟨hp, rfl⟩⟩
  exact (signBit_signed _ (by omega)).symm

/-- ADD of finite patterns with a nonzero sum, a zero operand included (R136, R137, R159). -/
theorem roundedSum_addPatterns {a b : Pattern16} (ha : isFinite a = true) (hb : isFinite b = true)
    (hne : exactSum a b ≠ 0) : RoundedSum (exactSum a b) (addPatterns a b) := by
  rcases addPatterns_finite_cases ha hb with ⟨hza, he⟩ | ⟨_, hzb, he⟩ | ⟨_, _, he⟩
  · rw [exactSum, sefValue_of_isZero hza, zero_add] at hne ⊢
    rw [he]
    exact roundedSum_self hb hne
  · rw [exactSum, sefValue_of_isZero hzb, add_zero] at hne ⊢
    rw [he]
    exact roundedSum_self ha hne
  · rw [he]
    exact roundedSum_addFinite ha hb hne

/-! A zero sum (R146, D13). -/

/-- A zero combined mantissa stays zero, and the zero has its sign. -/
theorem addFinite_of_exactSum_zero {a b : Pattern16} (ha : isFinite a = true) (hb : isFinite b = true)
    (h : exactSum a b = 0) : addFinite a b = zeroOf (combined a b).s := by
  have hn := normalises_normalised ha hb
  have hm := (roundGRS_m_eq_zero_iff hn).2 (Int.natAbs_eq_zero.2 h)
  obtain ⟨_, _, _, _, _, hs⟩ := roundGRS_of_normalises hn
  rw [addFinite, ← normalised_s, ← hs]
  rcases finalise_cases (roundGRS (normalised a b)) with ⟨_, he⟩ | ⟨hne, _⟩ | ⟨hne, _⟩ | ⟨hne, _⟩
  · exact he
  · exact absurd hm hne
  · exact absurd hm hne
  · exact absurd hm hne

/-- Cancellation of nonzero operands is plus zero. -/
theorem addPatterns_of_cancel {a b : Pattern16} (ha : isFinite a = true) (hb : isFinite b = true)
    (hza : isZero a = false) (hzb : isZero b = false) (h : exactSum a b = 0) : addPatterns a b = 0x0000#16 := by
  obtain ⟨hsigns, hequal⟩ := (combined_m_eq_zero_iff ha hb hza).1 ((combined_m_eq_zero_iff_exactSum ha hb).2 h)
  have hs : (combined a b).s = 0#1 := by
    rw [combined]
    rcases combine_cases (signOf a) (signOf b) (align (effExponent a) (widened a) (effExponent b) (widened b)) with
      ⟨h, _⟩ | ⟨_, h, _⟩ | ⟨_, h, _⟩ | ⟨_, _, he⟩
    · exact absurd h hsigns
    · omega
    · omega
    · rw [he]
  rw [addPatterns_of_finite ha hb hza hzb, addFinite_of_exactSum_zero ha hb h, hs]
  rfl

/-- Settles O39: the dispatch for NaNs and infinities, and the full path for the rest. -/
theorem addIsCorrectlyRounded : Obligations.AddIsCorrectlyRounded := by
  refine fun a b => ⟨addPatterns_of_nan, addPatterns_of_infinite, fun ha hb hza hzb => ⟨?_, ?_⟩⟩
  · exact addPatterns_of_cancel ha hb hza hzb
  · exact roundedSum_addPatterns ha hb

/-! Zero results. -/

theorem sefValue_eq_zero_iff (p : Pattern16) : sefValue p = 0 ↔ isZero p = true := by
  rw [← sefMagnitude_eq_zero_iff, ← Int.natAbs_eq_zero, sefValue, signed_natAbs]

theorem isZero_addPatterns_iff {a b : Pattern16} (ha : isFinite a = true) (hb : isFinite b = true) :
    isZero (addPatterns a b) = true ↔ exactSum a b = 0 := by
  constructor
  · intro hzero
    by_contra hne
    obtain ⟨r, hr, _, hinf, hfin⟩ := roundedSum_addPatterns ha hb hne
    rcases Nat.lt_or_ge r (2 ^ 25) with hlt | hge
    · obtain ⟨_, hmag⟩ := hfin hlt
      rw [(sefMagnitude_eq_zero_iff _).2 hzero] at hmag
      exact ne_zero_of_roundsTo hr (Int.natAbs_ne_zero.2 hne) hmag.symm
    · have hfinite := isInf_of_isFinite (isFinite_of_isZero hzero)
      rw [hinf hge] at hfinite
      cases hfinite
  · intro h
    rcases addPatterns_finite_cases ha hb with ⟨hza, he⟩ | ⟨_, hzb, he⟩ | ⟨hza, hzb, _⟩
    · rw [exactSum, sefValue_of_isZero hza, zero_add] at h
      rwa [he, ← sefValue_eq_zero_iff]
    · rw [exactSum, sefValue_of_isZero hzb, add_zero] at h
      rwa [he, ← sefValue_eq_zero_iff]
    · rw [addPatterns_of_cancel ha hb hza hzb h]
      decide

/-! Exact sums (R180). -/

theorem signed_signBit (t : Int) : signed (signBit t) t.natAbs = t := by
  unfold signBit
  split
  · rw [signed, if_pos rfl]
    omega
  · rw [signed, if_neg (by decide)]
    omega

/-- A sum on the grid and below 256 is given exactly. -/
theorem addPatterns_of_onGrid {a b : Pattern16} (ha : isFinite a = true) (hb : isFinite b = true)
    (hne : exactSum a b ≠ 0) (hgrid : OnGrid (exactSum a b).natAbs) (hlt : (exactSum a b).natAbs < 2 ^ 25) :
    isFinite (addPatterns a b) = true ∧ sefMagnitude (addPatterns a b) = (exactSum a b).natAbs ∧
    signOf (addPatterns a b) = signBit (exactSum a b) := by
  obtain ⟨r, hr, hsign, _, hfin⟩ := roundedSum_addPatterns ha hb hne
  obtain rfl := eq_of_roundsTo_of_onGrid hr hgrid
  obtain ⟨hfinite, hmag⟩ := hfin hlt
  exact ⟨hfinite, hmag, hsign⟩

/-- Settles O45: the magnitude of a pattern is on the grid, and a zero sum gives a zero. -/
theorem addIsExactWhenRepresentable : Obligations.AddIsExactWhenRepresentable := by
  intro a b c ha hb hc hsum
  by_cases h0 : exactSum a b = 0
  · have hzero := (isZero_addPatterns_iff ha hb).2 h0
    exact ⟨isFinite_of_isZero hzero, by rw [sefValue_of_isZero hzero, h0]⟩
  · have hmag : (exactSum a b).natAbs = sefMagnitude c := by rw [hsum, sefValue, signed_natAbs]
    have hle := sefMagnitude_le_of_finite hc
    obtain ⟨hfin, hresult, hsign⟩ :=
      addPatterns_of_onGrid ha hb h0 (by rw [hmag]; exact onGrid_sefMagnitude c) (by omega)
    exact ⟨hfin, by rw [sefValue, hsign, hresult, signed_signBit]⟩

/-! Gradual underflow (R178). -/

theorem exponentOf_eq_zero_of_sefMagnitude_lt {p : Pattern16} (h : sefMagnitude p < 2048) : exponentOf p = 0#4 := by
  by_contra he
  have := Nat.mul_le_mul (sig12_ge_of_normal p he) (Nat.one_le_two_pow (n := effExponent p - 1))
  rw [sefMagnitude] at h
  omega

/-- Settles O44: a sum below 2048 units is on the grid, and so small a magnitude has exponent 0. -/
theorem addUnderflowsGradually : Obligations.AddUnderflowsGradually := by
  refine fun a b ha hb => ⟨fun hne hlt => ?_, isZero_addPatterns_iff ha hb⟩
  obtain ⟨_, hmag, hsign⟩ := addPatterns_of_onGrid ha hb hne (onGrid_of_lt (by omega)) (by omega)
  have hexp := exponentOf_eq_zero_of_sefMagnitude_lt (hmag.trans_lt hlt)
  have hpos : sefMagnitude (addPatterns a b) ≠ 0 := by omega
  have hfrac : fractionOf (addPatterns a b) ≠ 0#11 := fun h => hpos (by
    rw [sefMagnitude_of_exponent_zero hexp, h]; rfl)
  refine ⟨hsign, ?_, by simp [isSubnormal, hexp, hfrac]⟩
  rw [← hmag, sefMagnitude_of_exponent_le_one (by rw [hexp]; decide)]

end Sys2Proof.Machine
end

section
/-! ADD under a zero operand, swapped operands and negated operands (R136, R146, R174 to R176, R181), and the sums that are not
associative (R183). -/

namespace Sys2Proof.Machine

/-! Zero operands. -/

/-- Settles O37: past the NaN and infinity tests a first zero returns the second operand. -/
theorem addOfAFirstZero : Obligations.AddOfAFirstZero := by
  refine ⟨fun a b hza hb => addPatterns_of_first_zero hza hb, ?_, ?_, ?_, ?_⟩
  all_goals exact addPatterns_of_first_zero (by decide) (by decide)

/-- The two zeros as words. -/
theorem isZero_iff_word (p : Pattern16) : isZero p = true ↔ p = 0x0000#16 ∨ p = 0x8000#16 := by
  have := p.isLt
  rw [isZero_iff, field_eq_iff _ (by decide), field_eq_iff _ (by decide), exponentOf_toNat, fractionOf_toNat,
    ← BitVec.toNat_inj, ← BitVec.toNat_inj, BitVec.toNat_ofNat, BitVec.toNat_ofNat]
  omega

/-- A zero on the left returns the other operand unless it is a NaN, an infinity included (R135, R136). -/
theorem addPatterns_zero_left {z a : Pattern16} (hz : isZero z = true) (hn : isNaN a = false) : addPatterns z a = a := by
  have hzf := isFinite_of_isZero hz
  cases hi : isInf a with
  | true => rw [addPatterns_of_infinite (isNaN_of_isFinite hzf) hn (.inr hi), if_neg (by simp [isInf_of_isFinite hzf]),
      if_neg (by simp [isInf_of_isFinite hzf])]
  | false => exact addPatterns_of_first_zero hz (isFinite_of_not_nan_not_inf hn hi)

/-- A zero on the right returns the other operand unless it is a NaN or a zero (R135, R137). -/
theorem addPatterns_zero_right {a z : Pattern16} (hz : isZero z = true) (hn : isNaN a = false) (hza : isZero a = false) :
    addPatterns a z = a := by
  have hzf := isFinite_of_isZero hz
  cases hi : isInf a with
  | true => rw [addPatterns_of_infinite hn (isNaN_of_isFinite hzf) (.inl hi), if_neg (by simp [isInf_of_isFinite hzf]),
      if_pos hi]
  | false => exact addPatterns_of_second_zero (isFinite_of_not_nan_not_inf hn hi) hza hz

/-- A zero on the right is an identity for everything but NaNs and the zero of the other sign. -/
theorem addPatterns_zero_right_of_ne {a z : Pattern16} (hz : isZero z = true) (hn : isNaN a = false)
    (hne : isZero a = true → a = z) : addPatterns a z = a := by
  cases hza : isZero a with
  | true => rw [hne hza, addPatterns_zero_left hz (isNaN_of_isFinite (isFinite_of_isZero hz))]
  | false => exact addPatterns_zero_right hz hn hza

/-- Settles O41: the two zeros on either side, and the NaN test before them. -/
theorem addOfZeroIsIdentity : Obligations.AddOfZeroIsIdentity := by
  have plus : isZero 0x0000#16 = true := by decide
  have minus : isZero 0x8000#16 = true := by decide
  refine fun a => ⟨fun hn => ⟨addPatterns_zero_left plus hn, addPatterns_zero_left minus hn⟩, fun hn hne => ?_,
    fun hn hne => ?_, addPatterns_zero_left minus (by decide), addPatterns_zero_left plus (by decide),
    fun hn => ⟨addPatterns_of_nan (.inr hn), addPatterns_of_nan (.inl hn)⟩⟩
  · exact addPatterns_zero_right_of_ne plus hn fun hz => ((isZero_iff_word a).1 hz).resolve_right hne
  · exact addPatterns_zero_right_of_ne minus hn fun hz => ((isZero_iff_word a).1 hz).resolve_left hne

/-! Swapped operands (R174). -/

theorem combine_swap (sa sb : BitVec 1) (x ma mb : Nat) : combine sb sa ⟨x, mb, ma⟩ = combine sa sb ⟨x, ma, mb⟩ := by
  by_cases hs : sa = sb
  · rw [combine, combine, if_pos hs, if_pos hs.symm, hs, Nat.add_comm]
  · rw [combine, combine, if_neg hs, if_neg (Ne.symm hs)]
    dsimp only
    rcases Nat.lt_trichotomy ma mb with h | h | h
    · rw [if_pos h, if_neg (by omega), if_pos h]
    · rw [if_neg (by omega), if_neg (by omega), if_neg (by omega), if_neg (by omega)]
    · rw [if_neg (by omega), if_pos h, if_pos h]

theorem addFinite_comm (a b : Pattern16) : addFinite a b = addFinite b a := by
  have hcombined : combined a b = combined b a := by
    rw [combined, combined, align_swap, combine_swap]
  rw [addFinite, addFinite, normalised, normalised, hcombined]

/-- With an infinite operand and no NaN the dispatch looks at both operands alike (R135). -/
theorem addPatterns_comm_of_infinite {a b : Pattern16} (hna : isNaN a = false) (hnb : isNaN b = false)
    (h : isInf a = true ∨ isInf b = true) : addPatterns a b = addPatterns b a := by
  rw [addPatterns_of_infinite hna hnb h, addPatterns_of_infinite hnb hna h.symm]
  cases hia : isInf a with
  | true =>
    cases hib : isInf b with
    | true =>
      by_cases hs : signOf a = signOf b
      · simp [eq_of_isInf_of_signOf_eq hia hib hs]
      · simp [hs, Ne.symm hs]
    | false => simp
  | false =>
    have hib : isInf b = true := h.resolve_left (by simp [hia])
    simp [hib]

/-- The sum of two zeros is the second, so they commute when they are one (R136). -/
theorem addPatterns_comm_iff_of_zeros {a b : Pattern16} (hza : isZero a = true) (hzb : isZero b = true) :
    addPatterns a b = addPatterns b a ↔ a = b := by
  rw [addPatterns_of_first_zero hza (isFinite_of_isZero hzb), addPatterns_of_first_zero hzb (isFinite_of_isZero hza)]
  exact eq_comm

/-- Finite operands commute unless both are zeros. -/
theorem addPatterns_comm_of_finite {a b : Pattern16} (ha : isFinite a = true) (hb : isFinite b = true)
    (h : isZero a = false ∨ isZero b = false) : addPatterns a b = addPatterns b a := by
  cases hza : isZero a with
  | true =>
    have hzb : isZero b = false := h.resolve_left (by simp [hza])
    rw [addPatterns_of_first_zero hza hb, addPatterns_of_second_zero hb hzb hza]
  | false =>
    cases hzb : isZero b with
    | true => rw [addPatterns_of_second_zero ha hza hzb, addPatterns_of_first_zero hzb ha]
    | false => rw [addPatterns_of_finite ha hb hza hzb, addPatterns_of_finite hb ha hzb hza, addFinite_comm]

/-- Operands that are not both zeros commute. -/
theorem addPatterns_comm {a b : Pattern16} (h : isZero a = false ∨ isZero b = false) :
    addPatterns a b = addPatterns b a := by
  rcases operands_cases a b with hn | ⟨hna, hnb, hi⟩ | ⟨ha, hb⟩
  · rw [addPatterns_of_nan hn, addPatterns_of_nan hn.symm]
  · exact addPatterns_comm_of_infinite hna hnb hi
  · exact addPatterns_comm_of_finite ha hb h

/-- Settles O40: two zeros commute only when they are one, and every other pair commutes. -/
theorem addCommutesButOnMixedZeros : Obligations.AddCommutesButOnMixedZeros := by
  intro a b
  by_cases hz : isZero a = true ∧ isZero b = true
  · rw [addPatterns_comm_iff_of_zeros hz.1 hz.2]
    rcases (isZero_iff_word a).1 hz.1 with rfl | rfl
    · rcases (isZero_iff_word b).1 hz.2 with rfl | rfl
      · decide
      · decide
    · rcases (isZero_iff_word b).1 hz.2 with rfl | rfl
      · decide
      · decide
  · have hcomm := addPatterns_comm (a := a) (b := b) (by simpa only [← Bool.not_eq_true] using not_and_or.1 hz)
    refine iff_of_true hcomm ?_
    rintro (⟨rfl, rfl⟩ | ⟨rfl, rfl⟩)
    · exact hz (by decide)
    · exact hz (by decide)

/-! Negated operands (R176, R181). -/

@[simp] theorem isNaN_negPattern (p : Pattern16) : isNaN (negPattern p) = isNaN p := by
  rw [isNaN, isNaN, exponentOf_negPattern, fractionOf_negPattern]

@[simp] theorem isFinite_negPattern (p : Pattern16) : isFinite (negPattern p) = isFinite p := by
  rw [isFinite, isFinite, exponentOf_negPattern]

@[simp] theorem isInf_negPattern (p : Pattern16) : isInf (negPattern p) = isInf p := by
  rw [Bool.eq_iff_iff, isInf_iff, isInf_iff, exponentOf_negPattern, fractionOf_negPattern]

@[simp] theorem isZero_negPattern (p : Pattern16) : isZero (negPattern p) = isZero p := by
  rw [Bool.eq_iff_iff, isZero_iff, isZero_iff, exponentOf_negPattern, fractionOf_negPattern]

@[simp] theorem effExponent_negPattern (p : Pattern16) : effExponent (negPattern p) = effExponent p := by
  rw [effExponent, effExponent, exponentOf_negPattern]

@[simp] theorem sig12_negPattern (p : Pattern16) : sig12 (negPattern p) = sig12 p := by
  rw [sig12, sig12, exponentOf_negPattern, fractionOf_negPattern]

@[simp] theorem widened_negPattern (p : Pattern16) : widened (negPattern p) = widened p := by
  rw [widened, widened, sig12_negPattern]

theorem flip_ne (s : BitVec 1) : s ≠ s ^^^ 1#1 := by
  rcases bit_cases s with rfl | rfl
  · decide
  · decide

theorem flip_eq_flip_iff {s s' : BitVec 1} : s ^^^ 1#1 = s' ^^^ 1#1 ↔ s = s' := BitVec.xor_left_inj _

theorem sefValue_negPattern (p : Pattern16) : sefValue (negPattern p) = - sefValue p := by
  rw [sefValue, signOf_negPattern, sefMagnitude, sig12_negPattern, effExponent_negPattern, ← sefMagnitude,
    signed_of_ne (flip_ne _), sefValue]

/-- Settles O42: the values cancel, whichever is first. -/
theorem cancellationIsPlusZero : Obligations.CancellationIsPlusZero := by
  intro p hp hz
  have hnp : isFinite (negPattern p) = true := (isFinite_negPattern p).trans hp
  have hnz : isZero (negPattern p) = false := (isZero_negPattern p).trans hz
  have hsum : exactSum p (negPattern p) = 0 := by rw [exactSum, sefValue_negPattern, add_neg_cancel]
  exact ⟨addPatterns_of_cancel hp hnp hz hnz hsum, addPatterns_of_cancel hnp hp hnz hz ((exactSum_comm _ _).trans hsum)⟩

/-- The interim result with its sign flipped. -/
def Interim.flip (t : Interim) : Interim := ⟨t.s ^^^ 1#1, t.x, t.m⟩

/-- S5 flips the sign with the operands' signs, but on cancellation. -/
theorem combine_flip (sa sb : BitVec 1) (al : Aligned) (h : (combine sa sb al).m ≠ 0) :
    combine (sa ^^^ 1#1) (sb ^^^ 1#1) al = (combine sa sb al).flip := by
  rcases combine_cases sa sb al with ⟨hs, he⟩ | ⟨hs, hlt, he⟩ | ⟨hs, hlt, he⟩ | ⟨_, _, he⟩
  · rw [he, combine, if_pos (flip_eq_flip_iff.2 hs)]
    rfl
  · rw [he, combine, if_neg (flip_eq_flip_iff.not.2 hs), if_pos hlt]
    rfl
  · rw [he, combine, if_neg (flip_eq_flip_iff.not.2 hs), if_neg (by omega), if_pos hlt]
    rfl
  · rw [he] at h
    exact absurd rfl h

theorem combined_negPattern {a b : Pattern16} (h : (combined a b).m ≠ 0) :
    combined (negPattern a) (negPattern b) = (combined a b).flip := by
  rw [combined, signOf_negPattern, signOf_negPattern, effExponent_negPattern, effExponent_negPattern, widened_negPattern,
    widened_negPattern]
  exact combine_flip _ _ _ h

/-! S6 to S8 carry the sign along. -/

theorem rightNormalise_flip (t : Interim) : rightNormalise t.flip = (rightNormalise t).flip := by
  rw [rightNormalise, rightNormalise, apply_ite Interim.flip]
  rfl

theorem leftNormalise_flip (t : Interim) : leftNormalise t.flip = (leftNormalise t).flip := rfl

theorem roundGRS_flip (t : Interim) : roundGRS t.flip = (roundGRS t).flip := by
  rw [roundGRS, roundGRS, apply_ite Interim.flip]
  rfl

theorem finalise_flip (t : Interim) : finalise t.flip = negPattern (finalise t) := by
  simp only [finalise, Interim.flip, zeroOf, infinityOf, apply_ite negPattern, negPattern_packNat]
  rfl

theorem addFinite_negPattern {a b : Pattern16} (h : (combined a b).m ≠ 0) :
    addFinite (negPattern a) (negPattern b) = negPattern (addFinite a b) := by
  rw [addFinite, normalised, combined_negPattern h, rightNormalise_flip, leftNormalise_flip, roundGRS_flip, finalise_flip,
    addFinite, normalised]

/-- Finite operands that do not cancel: the negated sum (R181). -/
theorem addPatterns_negPattern_of_finite {a b : Pattern16} (ha : isFinite a = true) (hb : isFinite b = true)
    (h : isZero a = false → isZero b = false → exactSum a b ≠ 0) :
    addPatterns (negPattern a) (negPattern b) = negPattern (addPatterns a b) := by
  have hna : isFinite (negPattern a) = true := (isFinite_negPattern a).trans ha
  have hnb : isFinite (negPattern b) = true := (isFinite_negPattern b).trans hb
  rcases addPatterns_finite_cases ha hb with ⟨hza, he⟩ | ⟨hza, hzb, he⟩ | ⟨hza, hzb, he⟩
  · rw [he, addPatterns_of_first_zero (by simpa using hza) hnb]
  · rw [he, addPatterns_of_second_zero hna (by simpa using hza) (by simpa using hzb)]
  · rw [he, addPatterns_of_finite hna hnb (by simpa using hza) (by simpa using hzb)]
    exact addFinite_negPattern ((combined_m_eq_zero_iff_exactSum ha hb).not.2 (h hza hzb))

/-- With an infinite operand: the negated infinity, or the canonical NaN as before. -/
theorem addPatterns_negPattern_of_infinite {a b : Pattern16} (ha : isNaN a = false) (hb : isNaN b = false)
    (h : isInf a = true ∨ isInf b = true) :
    addPatterns (negPattern a) (negPattern b) =
      if isInf a = true ∧ isInf b = true ∧ signOf a ≠ signOf b then canonicalNaN else negPattern (addPatterns a b) := by
  rw [addPatterns_of_infinite ha hb h, addPatterns_of_infinite (by simpa using ha) (by simpa using hb) (by simpa using h)]
  simp only [isInf_negPattern, signOf_negPattern, ne_eq, flip_eq_flip_iff]
  split_ifs
  · rfl
  · rfl
  · rfl

/-- A NaN sum comes from a NaN operand or from opposite infinities, and so does the sum of the negated operands. -/
theorem addPatterns_negPattern_of_nan {a b : Pattern16} (h : isNaN (addPatterns a b) = true) :
    addPatterns (negPattern a) (negPattern b) = canonicalNaN := by
  rcases operands_cases a b with hn | ⟨hna, hnb, hi⟩ | ⟨ha, hb⟩
  · exact addPatterns_of_nan (by simpa using hn)
  · rw [addPatterns_negPattern_of_infinite hna hnb hi]
    refine if_pos ?_
    by_contra hopposite
    rw [addPatterns_of_infinite hna hnb hi, if_neg hopposite] at h
    split_ifs at h
    · simp [hna] at h
    · simp [hnb] at h
  · simp [isNaN_addPatterns_of_finite ha hb] at h

/-- A sum that is no NaN and no cancellation is negated with the operands. -/
theorem addPatterns_negPattern {a b : Pattern16} (h : isNaN (addPatterns a b) = false)
    (hcancel : ¬ (isFinite a = true ∧ isFinite b = true ∧ isZero a = false ∧ isZero b = false ∧
      sefValue a = - sefValue b)) :
    addPatterns (negPattern a) (negPattern b) = negPattern (addPatterns a b) := by
  rcases operands_cases a b with hn | ⟨hna, hnb, hi⟩ | ⟨ha, hb⟩
  · rw [addPatterns_of_nan hn] at h
    exact absurd h (by decide)
  · rw [addPatterns_negPattern_of_infinite hna hnb hi]
    refine if_neg fun hopposite => ?_
    rw [addPatterns_of_infinite hna hnb hi, if_pos hopposite] at h
    exact absurd h (by decide)
  · exact addPatterns_negPattern_of_finite ha hb fun hza hzb hsum =>
      hcancel ⟨ha, hb, hza, hzb, eq_neg_of_add_eq_zero_left hsum⟩

/-- Settles O46: the operands' classes decide the case and negation keeps them; on cancellation both sums are plus zero. -/
theorem addSignSymmetry : Obligations.AddSignSymmetry := by
  refine fun a b => ⟨addPatterns_negPattern_of_nan, fun ha hb hza hzb hvalue => ?_, addPatterns_negPattern⟩
  have hsum : exactSum a b = 0 := by rw [exactSum, hvalue, neg_add_cancel]
  have hneg : exactSum (negPattern a) (negPattern b) = 0 := by
    rw [exactSum, sefValue_negPattern, sefValue_negPattern, hvalue, neg_neg, add_neg_cancel]
  exact ⟨addPatterns_of_cancel ha hb hza hzb hsum,
    addPatterns_of_cancel ((isFinite_negPattern a).trans ha) ((isFinite_negPattern b).trans hb)
      ((isZero_negPattern a).trans hza) ((isZero_negPattern b).trans hzb) hneg⟩

/-- Settles O48. -/
theorem addIsNotAssociative : Obligations.AddIsNotAssociative := by
  unfold Obligations.AddIsNotAssociative
  decide

end Sys2Proof.Machine
end
